-- ==== Sys2Proof/Word.lean ====
section
/-! DEFINITION. The cell type (00_scope.md R5 CELL_BITS = 8, R9) and its plainest readings. -/

namespace Sys2Proof

/-- A cell: an unsigned 8-bit value `0..255` (00_scope.md R5, 20_memory.md R33). Every operand, stack
payload and colour is one cell. -/
abbrev Byte := BitVec 8

/-- CELL_MOD = 2^CELL_BITS (00_scope.md R5). -/
abbrev CELL_MOD : Nat := 256

/-- "A result stored or pushed is always reduced mod CELL_MOD" (00_scope.md R9): the cell of a natural. -/
abbrev toCell (n : Nat) : Byte := BitVec.ofNat 8 n

end Sys2Proof
end

