-- ==== Sys2Proof/Syntax.lean ====
section
/-! DEFINITION. The instruction set as syntax: one constructor per row of spec/opcode_table.json, in the
table's order (30_encoding.md R63), and the seven formats of R61. -/

namespace Sys2Proof

/-- The seven formats of 30_encoding.md R61. -/
inductive Format where
  /-- opcode alone -/
  | F0
  /-- opcode, literal -/
  | FI
  /-- opcode, data offset -/
  | FD
  /-- opcode, program offset -/
  | FT
  /-- opcode, system-call code -/
  | FS
  /-- opcode, data offset, literal -/
  | FDI
  /-- opcode, data offset, data offset -/
  | FDD
deriving DecidableEq, Repr

/-- One instruction with its operand cells. `imm` is a literal, `d`, `d1`, `d2` are data offsets, `t` a
program offset, `code` a system-call code (30_encoding.md R62). Every value of every operand is legal.
`illegal op` is the table's row "(illegal)": a fetched opcode byte that encodes no instruction (R65). -/
inductive Instr where
  | halt
  | push (imm : Byte)
  | pushm (d : Byte)
  | pop (d : Byte)
  | wait
  | add
  | sub
  | mul
  | div
  | and
  | or
  | xor
  | addm (d : Byte)
  | subm (d : Byte)
  | mulm (d : Byte)
  | divm (d : Byte)
  | andm (d : Byte)
  | orm (d : Byte)
  | xorm (d : Byte)
  | lsh
  | rsh
  | lshm (d : Byte)
  | rshm (d : Byte)
  | not
  | notm (d : Byte)
  | inc (d : Byte)
  | dec (d : Byte)
  | cmp (d imm : Byte)
  | cmpm (d1 d2 : Byte)
  | jmp (t : Byte)
  | jeq (t : Byte)
  | jne (t : Byte)
  | jgt (t : Byte)
  | jlt (t : Byte)
  | jge (t : Byte)
  | jle (t : Byte)
  | call (t : Byte)
  | ret
  | putp (imm : Byte)
  | putpm (d : Byte)
  | puts (d : Byte)
  | sys (code : Byte)
  | nop
  | illegal (op : Byte)
deriving DecidableEq, Repr

end Sys2Proof
end

