-- ==== Sys2Proof/Decode.lean ====
section
/-! DEFINITION. The decoder, total on any bytes and rejecting by name, then the encoder, both written from
the opcode map and the formats of 30_encoding.md (R60-R65); the opcode table with its mnemonics (R63). -/

namespace Sys2Proof

/-- Length of a format in cells (30_encoding.md R61, R64). -/
def Format.length : Format → Nat
  | .F0 => 1
  | .FI | .FD | .FT | .FS => 2
  | .FDI | .FDD => 3

/-- An opcode that still waits for its operand cells, which follow it in ascending address order
(30_encoding.md R60, 20_memory.md R43). -/
inductive Shape where
  /-- no operand cell -/
  | none (i : Instr)
  /-- one operand cell -/
  | one (k : Byte → Instr)
  /-- two operand cells, byte 1 then byte 2 -/
  | two (k : Byte → Byte → Instr)

/-- `Decode(op)` of 40_cycle.md R85, from the opcode map of 30_encoding.md R63: a total function of the
opcode byte alone. A byte from 0x2B to 0xFF encodes no instruction (R65). -/
def decodeOpcode (op : Byte) : Shape :=
  match op with
  | 0x00#8 => .none .halt
  | 0x01#8 => .one .push
  | 0x02#8 => .one .pushm
  | 0x03#8 => .one .pop
  | 0x04#8 => .none .wait
  | 0x05#8 => .none .add
  | 0x06#8 => .none .sub
  | 0x07#8 => .none .mul
  | 0x08#8 => .none .div
  | 0x09#8 => .none .and
  | 0x0A#8 => .none .or
  | 0x0B#8 => .none .xor
  | 0x0C#8 => .one .addm
  | 0x0D#8 => .one .subm
  | 0x0E#8 => .one .mulm
  | 0x0F#8 => .one .divm
  | 0x10#8 => .one .andm
  | 0x11#8 => .one .orm
  | 0x12#8 => .one .xorm
  | 0x13#8 => .none .lsh
  | 0x14#8 => .none .rsh
  | 0x15#8 => .one .lshm
  | 0x16#8 => .one .rshm
  | 0x17#8 => .none .not
  | 0x18#8 => .one .notm
  | 0x19#8 => .one .inc
  | 0x1A#8 => .one .dec
  | 0x1B#8 => .two .cmp
  | 0x1C#8 => .two .cmpm
  | 0x1D#8 => .one .jmp
  | 0x1E#8 => .one .jeq
  | 0x1F#8 => .one .jne
  | 0x20#8 => .one .jgt
  | 0x21#8 => .one .jlt
  | 0x22#8 => .one .jge
  | 0x23#8 => .one .jle
  | 0x24#8 => .one .call
  | 0x25#8 => .none .ret
  | 0x26#8 => .one .putp
  | 0x27#8 => .one .putpm
  | 0x28#8 => .one .puts
  | 0x29#8 => .one .sys
  | 0x2A#8 => .none .nop
  | _ => .none (.illegal op)

/-- Number of cells of the instruction an opcode byte begins: told "from its opcode byte alone"
(30_encoding.md R64). -/
def Shape.length : Shape → Nat
  | .none _ => 1
  | .one _ => 2
  | .two _ => 3

/-- Why a list of bytes holds no whole instruction at its head. -/
inductive DecodeError where
  /-- no byte at all -/
  | noOpcode
  /-- the opcode byte `op` is there but one of its operand cells is not -/
  | missingOperand (op : Byte)
deriving DecidableEq, Repr

/-- The instruction at the head of a list of bytes, and the bytes after it. -/
def decode : List Byte → Except DecodeError (Instr × List Byte)
  | [] => .error .noOpcode
  | op :: bs =>
    match decodeOpcode op, bs with
    | .none i, rest => .ok (i, rest)
    | .one k, b :: rest => .ok (k b, rest)
    | .two k, b :: c :: rest => .ok (k b c, rest)
    | _, _ => .error (.missingOperand op)

/-! ## The encoder -/

/-- The opcode byte of an instruction (30_encoding.md R63). -/
def Instr.opcode : Instr → Byte
  | .halt => 0x00 | .push _ => 0x01 | .pushm _ => 0x02 | .pop _ => 0x03 | .wait => 0x04
  | .add => 0x05 | .sub => 0x06 | .mul => 0x07 | .div => 0x08 | .and => 0x09 | .or => 0x0A
  | .xor => 0x0B | .addm _ => 0x0C | .subm _ => 0x0D | .mulm _ => 0x0E | .divm _ => 0x0F
  | .andm _ => 0x10 | .orm _ => 0x11 | .xorm _ => 0x12 | .lsh => 0x13 | .rsh => 0x14
  | .lshm _ => 0x15 | .rshm _ => 0x16 | .not => 0x17 | .notm _ => 0x18 | .inc _ => 0x19
  | .dec _ => 0x1A | .cmp _ _ => 0x1B | .cmpm _ _ => 0x1C | .jmp _ => 0x1D | .jeq _ => 0x1E
  | .jne _ => 0x1F | .jgt _ => 0x20 | .jlt _ => 0x21 | .jge _ => 0x22 | .jle _ => 0x23
  | .call _ => 0x24 | .ret => 0x25 | .putp _ => 0x26 | .putpm _ => 0x27 | .puts _ => 0x28
  | .sys _ => 0x29 | .nop => 0x2A | .illegal op => op

/-- The operand cells of an instruction, byte 1 first (30_encoding.md R61). -/
def Instr.operands : Instr → List Byte
  | .push b | .pushm b | .pop b | .addm b | .subm b | .mulm b | .divm b | .andm b | .orm b | .xorm b
  | .lshm b | .rshm b | .notm b | .inc b | .dec b | .jmp b | .jeq b | .jne b | .jgt b | .jlt b
  | .jge b | .jle b | .call b | .putp b | .putpm b | .puts b | .sys b => [b]
  | .cmp b c | .cmpm b c => [b, c]
  | .halt | .wait | .add | .sub | .mul | .div | .and | .or | .xor | .lsh | .rsh | .not | .ret | .nop
  | .illegal _ => []

/-- The words of an instruction: the opcode, then its operand cells (30_encoding.md R60). -/
def encode (i : Instr) : List Byte := i.opcode :: i.operands

/-- Length of an instruction in cells (30_encoding.md R64). An illegal byte is one cell. -/
def Instr.length (i : Instr) : Nat := 1 + i.operands.length

/-! ## The opcode table -/

/-- A row of the opcode map (30_encoding.md R63). -/
structure OpcodeRow where
  mnemonic : List Char
  opcode : Byte
  format : Format
deriving DecidableEq, Repr

/-- The opcode map of 30_encoding.md R63. The assembler reads mnemonics from it (R69, R81). -/
def opcodeTable : List OpcodeRow :=
  [⟨['h','a','l','t'], 0x00, .F0⟩, ⟨['p','u','s','h'], 0x01, .FI⟩, ⟨['p','u','s','h','m'], 0x02, .FD⟩,
   ⟨['p','o','p'], 0x03, .FD⟩, ⟨['w','a','i','t'], 0x04, .F0⟩, ⟨['a','d','d'], 0x05, .F0⟩,
   ⟨['s','u','b'], 0x06, .F0⟩, ⟨['m','u','l'], 0x07, .F0⟩, ⟨['d','i','v'], 0x08, .F0⟩,
   ⟨['a','n','d'], 0x09, .F0⟩, ⟨['o','r'], 0x0A, .F0⟩, ⟨['x','o','r'], 0x0B, .F0⟩] ++
  [⟨['a','d','d','m'], 0x0C, .FD⟩, ⟨['s','u','b','m'], 0x0D, .FD⟩, ⟨['m','u','l','m'], 0x0E, .FD⟩,
   ⟨['d','i','v','m'], 0x0F, .FD⟩, ⟨['a','n','d','m'], 0x10, .FD⟩, ⟨['o','r','m'], 0x11, .FD⟩,
   ⟨['x','o','r','m'], 0x12, .FD⟩, ⟨['l','s','h'], 0x13, .F0⟩, ⟨['r','s','h'], 0x14, .F0⟩,
   ⟨['l','s','h','m'], 0x15, .FD⟩, ⟨['r','s','h','m'], 0x16, .FD⟩, ⟨['n','o','t'], 0x17, .F0⟩] ++
  [⟨['n','o','t','m'], 0x18, .FD⟩, ⟨['i','n','c'], 0x19, .FD⟩, ⟨['d','e','c'], 0x1A, .FD⟩,
   ⟨['c','m','p'], 0x1B, .FDI⟩, ⟨['c','m','p','m'], 0x1C, .FDD⟩, ⟨['j','m','p'], 0x1D, .FT⟩,
   ⟨['j','e','q'], 0x1E, .FT⟩, ⟨['j','n','e'], 0x1F, .FT⟩, ⟨['j','g','t'], 0x20, .FT⟩,
   ⟨['j','l','t'], 0x21, .FT⟩, ⟨['j','g','e'], 0x22, .FT⟩, ⟨['j','l','e'], 0x23, .FT⟩] ++
  [⟨['c','a','l','l'], 0x24, .FT⟩, ⟨['r','e','t'], 0x25, .F0⟩, ⟨['p','u','t','p'], 0x26, .FI⟩,
   ⟨['p','u','t','p','m'], 0x27, .FD⟩, ⟨['p','u','t','s'], 0x28, .FD⟩, ⟨['s','y','s'], 0x29, .FS⟩,
   ⟨['n','o','p'], 0x2A, .F0⟩]

/-! ## The numbering of spec/opcode_table.json -/

/-- Longest instruction in cells (30_encoding.md R61). -/
abbrev maxLength : Nat := 3

/-- The `maxLength` bytes of a table word `w` of `nbits` bits, lowest bits first (bit 0 is the least
significant bit of the first byte); bits at `nbits` and above are 0. -/
def tableBytes (nbits w : Nat) : List Byte :=
  (List.range maxLength).map fun k => toCell ((w % 2 ^ nbits) / 256 ^ k)

/-- What the decoder reads from a word numbered as spec/opcode_table.json numbers it. -/
def decodeTableWord (nbits w : Nat) : Option Instr :=
  match decode (tableBytes nbits w) with
  | .ok (i, _) => some i
  | .error _ => none

end Sys2Proof
end

