-- ==== Sys2Proof/Config.lean ====
section
/-! DEFINITION. The parameters of 00_scope.md R5 and R6. All are fixed by the spec (R7) but WAIT_SCALE,
which R6 leaves open and which is therefore opaque here. -/

namespace Sys2Proof.Config

/-- Number of cells of the address space, 0x6000 (00_scope.md R5). -/
abbrev MEM_SIZE : Nat := 24576

abbrev PROG_BASE : Nat := 0
abbrev PROG_SIZE : Nat := 4096

abbrev VIDEO_BASE : Nat := 4096
abbrev VIDEO_W : Nat := 128
abbrev VIDEO_H : Nat := 128
/-- VIDEO_W * VIDEO_H (00_scope.md R5). -/
abbrev VIDEO_SIZE : Nat := 16384

abbrev DATA_BASE : Nat := 20480
abbrev DATA_SIZE : Nat := 3840

abbrev CONFIG_BASE : Nat := 24320
abbrev CONFIG_SIZE : Nat := 256

/-- Maximum number of operand-stack entries (00_scope.md R6). -/
abbrev STACK_CAP : Nat := 256
/-- Maximum number of call-stack entries (00_scope.md R6). -/
abbrev CALL_CAP : Nat := 256

/-- Side of a `puts` block (00_scope.md R6). -/
abbrev BLIT_W : Nat := 8
abbrev BLIT_H : Nat := 8
/-- Cells per `puts` frame (00_scope.md R6). -/
abbrev FRAME_CELLS : Nat := 64

/-- System-call code of ClearScreen (00_scope.md R6, 30_encoding.md R66). -/
abbrev SYS_CLEAR_SCREEN : Byte := 0xF0#8

/-- The open part of WAIT_SCALE: nothing is known of it (log 1). -/
opaque waitScalePred : Nat

/-- WAIT_SCALE, "OPEN, a natural number >= 1" (00_scope.md R6): one more than an unknown natural, so that
it is at least 1 and otherwise unknown (log 1). -/
def waitScale : Nat := waitScalePred + 1

end Sys2Proof.Config
end

