-- ==== Sys2Proof/Machine/Memory.lean ====
section
/-! DEFINITION. The cell array of 20_memory.md R33 as plain data: a list of (address, cell) pairs in one
canonical form, and the operations on it. Bounds are checked by the access primitives of Machine/Ops.lean. -/

namespace Sys2Proof.Machine

open Sys2Proof.Config

/-- The cells that differ from `unlisted`, at strictly rising addresses. -/
abbrev Memory := List Host.Cell

/-- What an address that is not listed reads as: the power-on value of every cell (10_state.md R32). -/
abbrev unlisted : Byte := 0

/-- The canonical form: strictly rising addresses below MEM_SIZE (20_memory.md R33), and no cell that
holds what an unlisted address reads as. Equal memories are equal lists. -/
abbrev Memory.wf (m : Memory) : Prop :=
  m.Pairwise (fun c c' => c.1 < c'.1) ∧ ∀ c ∈ m, c.1 < MEM_SIZE ∧ c.2 ≠ unlisted

/-- `mem[a]` (20_memory.md R37). -/
def Memory.read : Memory → Nat → Byte
  | [], _ => unlisted
  | (b, w) :: m, a => if a = b then w else Memory.read m a

/-- `mem[a] <- v` (20_memory.md R37), in canonical form. -/
def Memory.write : Memory → Nat → Byte → Memory
  | [], a, v => if v = unlisted then [] else [(a, v)]
  | (b, w) :: m, a, v =>
    if a < b then (if v = unlisted then (b, w) :: m else (a, v) :: (b, w) :: m)
    else if a = b then (if v = unlisted then m else (a, v) :: m)
    else (b, w) :: Memory.write m a v

/-- `for k in 0 .. len-1: mem[base + k] <- vs[k]` (the loops of 70_reset_and_hazards.md R169). -/
def Memory.writeAll : Memory → Nat → List Byte → Memory
  | m, _, [] => m
  | m, base, v :: vs => Memory.writeAll (Memory.write m base v) (base + 1) vs

/-- The `n` listed cells from `lo` up that all hold `v`; none if `v` is what an unlisted cell reads as. -/
def Memory.run (lo n : Nat) (v : Byte) : Memory :=
  if v = unlisted then [] else (List.range' lo n).map fun a => (a, v)

/-- `for a in lo .. lo+n-1: mem[a] <- v` (the loop of 60_exceptions.md R155): the cells below, the filled
run, the cells above. `Memory.fill_eq_writeAll` says that it is the loop. -/
def Memory.fill (m : Memory) (lo n : Nat) (v : Byte) : Memory :=
  m.filter (fun c => c.1 < lo) ++ Memory.run lo n v ++ m.filter (fun c => lo + n ≤ c.1)

/-- The cells `lo .. lo+n-1` in order: the host's copy of a part of the array (20_memory.md R52). -/
def Memory.copy (m : Memory) (lo n : Nat) : List Byte := (List.range' lo n).map m.read

end Sys2Proof.Machine
end

