-- ==== Sys2Proof/Machine/State.lean ====
section
/-! DEFINITION. The state tuple of 10_state.md R16, its reset value (R32), and the reasons a step could
stop outside the spec's own fault state (there are none). -/

namespace Sys2Proof.Machine

open Sys2Proof.Config

/-- A tagged value of the operand stack (10_state.md R20). -/
inductive Value where
  /-- `Lit(n)`: a literal -/
  | lit (n : Byte)
  /-- `Mem(a)`: a reference to the data cell at data offset `a` -/
  | mem (a : Byte)
deriving DecidableEq, Repr

/-- The comparison flag (10_state.md R23). -/
inductive Flag where
  | equal
  | greater
  | less
deriving DecidableEq, Repr

/-- The eight causes of a runtime fault (60_exceptions.md R144). -/
inductive FaultCause where
  | boundary
  | callUnderflow
  | divZero
  | illegalOpcode
  | stackUnderflow
  | stackOverflow
  | callOverflow
  | illegalSyscall
deriving DecidableEq, Repr

/-- The fault record `{cause, pc0, opcode, addr}` (10_state.md R26). -/
structure FaultRecord where
  cause : FaultCause
  /-- address of the failing instruction's opcode -/
  pc0 : Nat
  /-- the opcode cell, or `none` if the opcode fetch itself failed -/
  opcode : Option Byte
  /-- the offending absolute address, or `none` -/
  addr : Option Nat
deriving DecidableEq, Repr

/-- The clip rectangle `(vx, vy, vw, vh)` of the surface (10_state.md R27). -/
structure Viewport where
  vx : Nat
  vy : Nat
  vw : Nat
  vh : Nat
deriving DecidableEq, Repr

/-- A block `(off, cap)` of the allocator (10_state.md R28). -/
structure Block where
  off : Nat
  cap : Nat
deriving DecidableEq, Repr

/-- The architectural state: exactly the tuple of 10_state.md R16 ("Nothing else is state"). -/
structure State where
  /-- address of the next cell to fetch (R18) -/
  pc : Nat
  /-- operand stack, head is the top (R21) -/
  ostack : List Value
  /-- call stack of return addresses, head is the top (R22) -/
  cstack : List Nat
  /-- comparison flag (R23) -/
  flag : Flag
  /-- wait counter (R24) -/
  wait : Nat
  /-- the engine's stop bit (R25) -/
  halted : Bool
  /-- fault record (R26) -/
  fault : Option FaultRecord
  /-- the cell array (20_memory.md R33) -/
  mem : Memory
  /-- clip rectangle of the surface (R27) -/
  viewport : Viewport
  /-- the surface has unpresented changes (R27) -/
  dirty : Bool
  /-- next never-allocated data offset (R28) -/
  arena : Nat
  /-- blocks in use (R28) -/
  used : List Block
  /-- free blocks, oldest freed first (R28) -/
  freel : List Block
deriving DecidableEq, Repr

/-- The viewport that shows the whole screen (10_state.md R32, 60_exceptions.md R158). -/
def fullViewport : Viewport := ⟨0, 0, VIDEO_W, VIDEO_H⟩

/-- Power-on (10_state.md R32, 70_reset_and_hazards.md R167). No program is loaded: the first tick would run
the `halt` that cell 0 holds. -/
def State.reset : State where
  pc := PROG_BASE
  ostack := []
  cstack := []
  flag := .equal
  wait := 0
  halted := false
  fault := none
  mem := []
  viewport := fullViewport
  dirty := false
  arena := 0
  used := []
  freel := []

/-- A stop of the model outside the machine's own fault state. There is none, so this type is empty: every
runtime error of the spec is a fault ENTRY (60_exceptions.md R145), which is a next state. -/
inductive Fault where
deriving DecidableEq, Repr

/-- Why an instruction is given no meaning. -/
inductive Refusal where
  /-- raised by an arm of `exec` for an instruction of the table that has no meaning yet (safe); no arm
  raises it -/
  | notModelled (mnemonic : String)
deriving DecidableEq, Repr

end Sys2Proof.Machine
end

