-- ==== Sys2Proof/Machine/Operands.lean ====
section
/-! DEFINITION. The operand forms: what an operand cell names (30_encoding.md R62) and what a tagged value
holds (10_state.md R20, 42_alu.md R113). None is sign-extended, scaled or shifted. -/

namespace Sys2Proof.Machine

open Sys2Proof.Config

/-- A data-address operand or a `Mem` payload: the data offset `zext(d)` (30_encoding.md R62). -/
def dataOffset (d : Byte) : Nat := d.toNat

/-- The cell a data offset names (20_memory.md R38). -/
def dataAddr (off : Nat) : Nat := DATA_BASE + off

/-- A target operand: the program address `PROG_BASE + zext(t)` (30_encoding.md R62, 43_control.md R126). -/
def targetAddr (t : Byte) : Nat := PROG_BASE + t.toNat

/-- `Payload` (42_alu.md R113). -/
def Value.payload : Value → Byte
  | .lit n => n
  | .mem a => a

/-- `Retag(v, r)`: the payload `r` under the tag of `v` (42_alu.md R113). -/
def Value.retag : Value → Byte → Value
  | .lit _, r => .lit r
  | .mem _, r => .mem r

/-- The number a value unpacks to when memory is `m` (40_cycle.md R87): `Unpack` answers it, since every
one-cell data offset is inside the data region (20_memory.md R38). -/
def Value.numberIn (m : Memory) : Value → Byte
  | .lit n => n
  | .mem a => m.read (dataAddr (dataOffset a))

/-- The numeric code of a fault cause (60_exceptions.md R144). -/
def FaultCause.code : FaultCause → Nat
  | .boundary => 1
  | .callUnderflow => 2
  | .divZero => 3
  | .illegalOpcode => 4
  | .stackUnderflow => 5
  | .stackOverflow => 6
  | .callOverflow => 7
  | .illegalSyscall => 8

end Sys2Proof.Machine
end

