-- ==== Sys2Proof/Machine/Ops.lean ====
section
/-! DEFINITION. The primitives every instruction rule uses (00_scope.md R11), taking a fault
(60_exceptions.md R145), the only way out of a fault (70_reset_and_hazards.md R168), and the frame of an
instruction's execution. -/

namespace Sys2Proof.Machine

open Sys2Proof.Config

/-- `raise Fault(cause, addr)` (00_scope.md R11). -/
structure Raise where
  cause : FaultCause
  addr : Option Nat
deriving DecidableEq, Repr

/-- The result of a line of pseudocode: a value, or the fault it raises (00_scope.md R12). -/
abbrev Res (α : Type) := Except Raise α

/-- `raise Fault(BOUNDARY, addr)`. -/
def boundary {α : Type} (addr : Nat) : Res α := .error ⟨.boundary, some addr⟩

/-- `raise Fault(cause, none)`. -/
def raise {α : Type} (cause : FaultCause) : Res α := .error ⟨cause, none⟩

/-! ## Memory accesses (20_memory.md R37-R39) -/

/-- `MemRead(addr, 1)` (20_memory.md R37). -/
def memRead (s : State) (addr : Nat) : Res Byte :=
  if addr < MEM_SIZE then .ok (s.mem.read addr) else boundary addr

/-- `MemWrite(addr, 1, v)` (20_memory.md R37). -/
def memWrite (s : State) (addr : Nat) (v : Byte) : Res State :=
  if addr < MEM_SIZE then .ok { s with mem := s.mem.write addr v } else boundary addr

/-- `DataRead(off)` (20_memory.md R38). -/
def dataRead (s : State) (off : Nat) : Res Byte :=
  if off < DATA_SIZE then memRead s (dataAddr off) else boundary (dataAddr off)

/-- `DataWrite(off, v)` (20_memory.md R38). -/
def dataWrite (s : State) (off : Nat) (v : Byte) : Res State :=
  if off < DATA_SIZE then memWrite s (dataAddr off) v else boundary (dataAddr off)

/-- `ProgRead(addr)` (20_memory.md R39). -/
def progRead (s : State) (addr : Nat) : Res Byte :=
  if PROG_BASE ≤ addr ∧ addr < PROG_BASE + PROG_SIZE then memRead s addr else boundary addr

/-! ## Fetch (40_cycle.md R84) -/

/-- `FetchByte()` (40_cycle.md R84). -/
def fetchByte (s : State) : Res (Byte × State) := do
  let b ← progRead s s.pc
  return (b, { s with pc := s.pc + 1 })

/-! ## The operand stack (40_cycle.md R87, R89) -/

/-- `Push(v)` (40_cycle.md R89). -/
def push (v : Value) (s : State) : Res State :=
  if s.ostack.length = STACK_CAP then raise .stackOverflow else .ok { s with ostack := v :: s.ostack }

/-- `Pop()` (40_cycle.md R89). -/
def pop (s : State) : Res (Value × State) :=
  match s.ostack with
  | [] => raise .stackUnderflow
  | v :: rest => .ok (v, { s with ostack := rest })

/-- `IsEmpty()` (40_cycle.md R89). -/
def isEmpty (s : State) : Bool := s.ostack.isEmpty

/-- `Unpack(v)` (40_cycle.md R87). It never changes state. -/
def unpack (s : State) : Value → Res Byte
  | .lit n => .ok n
  | .mem a => dataRead s (dataOffset a)

/-! ## Faults and the way out of one -/

/-- A fault is taken from `s`, the state at the start of the tick (60_exceptions.md R145): every write of
the tick is undone, `halted` is set, and the record says where and why; `pc` stays at the opcode. `op` is
the opcode cell, or `none` if its fetch failed. -/
def takeFault (s : State) (op : Option Byte) (r : Raise) : State :=
  { s with halted := true, fault := some ⟨r.cause, s.pc, op, r.addr⟩ }

/-- The engine reset (70_reset_and_hazards.md R168), the only way out of a fault (60_exceptions.md R147). It
restores the engine fields; memory, the surface and the allocator keep their values. -/
def engineReset (s : State) : State :=
  { s with
    pc := PROG_BASE, ostack := [], cstack := [], flag := .equal, wait := 0, halted := false,
    fault := none }

/-! ## Executing one instruction -/

/-- `Execute(ins)` (40_cycle.md R82, R86): the operand cells of `i` are fetched, so `pc` is past them, and
`body` is the rest of the rule's pseudocode. A fault of `body` is taken from `s`, the state at the start of
the tick (60_exceptions.md R145). -/
def runInstr (i : Instr) (s : State) (body : State → Res State) : Host.Outcome State Fault Refusal :=
  match body { s with pc := s.pc + i.length } with
  | .ok s' => .next s'
  | .error r => .next (takeFault s (some i.opcode) r)

/-- One tick of the wait counter (40_cycle.md R82). -/
def countDown (s : State) : State := { s with wait := s.wait - 1 }

end Sys2Proof.Machine
end

