-- ==== Sys2Proof/Machine/Alu.lean ====
section
/-! DEFINITION. Arithmetic, logic, shift, complement, increment and decrement (42_alu.md R96-R122). Each
operation converts its cells to naturals, computes exactly and narrows at the end (R96, 00_scope.md R9). -/

namespace Sys2Proof.Machine

/-! ## The operations of 42_alu.md R96 -/

/-- `(x + y) mod 256`. -/
def aluAdd (x y : Byte) : Byte := toCell (x.toNat + y.toNat)
/-- `(x - y) mod 256`: the borrow wraps. -/
def aluSub (x y : Byte) : Byte := BitVec.ofInt 8 ((x.toNat : Int) - (y.toNat : Int))
/-- `(x * y) mod 256`. -/
def aluMul (x y : Byte) : Byte := toCell (x.toNat * y.toNat)
/-- `x div y` (floor), for `y != 0`. -/
def aluDiv (x y : Byte) : Byte := toCell (x.toNat / y.toNat)
/-- `x & y`, bitwise. -/
def aluAnd (x y : Byte) : Byte := x &&& y
/-- `x | y`, bitwise. -/
def aluOr (x y : Byte) : Byte := x ||| y
/-- `x ^ y`, bitwise. -/
def aluXor (x y : Byte) : Byte := x ^^^ y
/-- `(x * 2^y) mod 256`: 0 for `y >= 8`. -/
def aluShl (x y : Byte) : Byte := toCell (x.toNat * 2 ^ y.toNat)
/-- `x div 2^y`: 0 for `y >= 8`. -/
def aluShr (x y : Byte) : Byte := toCell (x.toNat / 2 ^ y.toNat)
/-- `255 - x`. -/
def aluNot (x : Byte) : Byte := toCell (255 - x.toNat)

/-- The operator of a binary operation that cannot fault (42_alu.md R96). -/
def pureOp (f : Byte → Byte → Byte) (x y : Byte) : Res Byte := .ok (f x y)

/-- DIV: `y = 0` raises DIV_ZERO (42_alu.md R96, R101). -/
def divOp (x y : Byte) : Res Byte := if y = 0 then raise .divZero else .ok (aluDiv x y)

/-! ## Shapes shared by several instructions -/

/-- The two pops of a binary operation: the first gives the right operand `b`, the second the left operand
`a` (40_cycle.md R90). -/
def popTwo (s : State) : Res (Value × Value × State) := do
  let (b, s) ← pop s
  let (a, s) ← pop s
  return (a, b, s)

/-- Pop, pop, unpack left then right, operate (40_cycle.md R90, R91; 42_alu.md R97). -/
def binary (op : Byte → Byte → Res Byte) (s : State) : Res (Byte × State) := do
  let (a, b, s) ← popTwo s
  let x ← unpack s a
  let y ← unpack s b
  let r ← op x y
  return (r, s)

/-- A stack binary operation (42_alu.md R97). -/
def binaryStack (op : Byte → Byte → Res Byte) (s : State) : Res State := do
  let (r, s) ← binary op s
  push (.lit r) s

/-- A memory-destination binary operation (42_alu.md R105). -/
def binaryMem (op : Byte → Byte → Res Byte) (d : Byte) (s : State) : Res State := do
  let (r, s) ← binary op s
  dataWrite s (dataOffset d) r

/-- The shifted value, its tag kept: the amount is unpacked, the value is not (42_alu.md R113). -/
def shifted (op : Byte → Byte → Byte) (s : State) : Res (Value × State) := do
  let (a, b, s) ← popTwo s
  let k ← unpack s b
  return (a.retag (op a.payload k), s)

/-- The complemented value, its tag kept (42_alu.md R113, R119). -/
def complemented (s : State) : Res (Value × State) := do
  let (a, s) ← pop s
  return (a.retag (aluNot a.payload), s)

/-- `Push(result)` of a shift or complement (42_alu.md R115, R116, R119). -/
def pushResult (r : Res (Value × State)) : Res State := do
  let (v, s) ← r
  push v s

/-- `DataWrite(d, Unpack(result))` of a shift or complement (42_alu.md R114). -/
def storeResult (d : Byte) (r : Res (Value × State)) : Res State := do
  let (v, s) ← r
  let n ← unpack s v
  dataWrite s (dataOffset d) n

/-- `DataWrite(d, f(DataRead(d)))` (42_alu.md R121, R122). -/
def updateCell (f : Byte → Byte) (d : Byte) (s : State) : Res State := do
  let v ← dataRead s (dataOffset d)
  dataWrite s (dataOffset d) (f v)

/-! ## Binary operations on the stack -/

/-- `add` (42_alu.md R98). -/
def execAdd (s : State) : Host.Outcome State Fault Refusal :=
  runInstr .add s fun s => binaryStack (pureOp aluAdd) s

/-- `sub` (42_alu.md R99). -/
def execSub (s : State) : Host.Outcome State Fault Refusal :=
  runInstr .sub s fun s => binaryStack (pureOp aluSub) s

/-- `mul` (42_alu.md R100). -/
def execMul (s : State) : Host.Outcome State Fault Refusal :=
  runInstr .mul s fun s => binaryStack (pureOp aluMul) s

/-- `div` (42_alu.md R101). -/
def execDiv (s : State) : Host.Outcome State Fault Refusal :=
  runInstr .div s fun s => binaryStack divOp s

/-- `and` (42_alu.md R102). -/
def execAnd (s : State) : Host.Outcome State Fault Refusal :=
  runInstr .and s fun s => binaryStack (pureOp aluAnd) s

/-- `or` (42_alu.md R103). -/
def execOr (s : State) : Host.Outcome State Fault Refusal :=
  runInstr .or s fun s => binaryStack (pureOp aluOr) s

/-- `xor` (42_alu.md R104). -/
def execXor (s : State) : Host.Outcome State Fault Refusal :=
  runInstr .xor s fun s => binaryStack (pureOp aluXor) s

/-! ## Binary operations to memory -/

/-- `addm &var` (42_alu.md R106). -/
def execAddm (d : Byte) (s : State) : Host.Outcome State Fault Refusal :=
  runInstr (.addm d) s fun s => binaryMem (pureOp aluAdd) d s

/-- `subm &var` (42_alu.md R107). -/
def execSubm (d : Byte) (s : State) : Host.Outcome State Fault Refusal :=
  runInstr (.subm d) s fun s => binaryMem (pureOp aluSub) d s

/-- `mulm &var` (42_alu.md R108). -/
def execMulm (d : Byte) (s : State) : Host.Outcome State Fault Refusal :=
  runInstr (.mulm d) s fun s => binaryMem (pureOp aluMul) d s

/-- `divm &var` (42_alu.md R109). -/
def execDivm (d : Byte) (s : State) : Host.Outcome State Fault Refusal :=
  runInstr (.divm d) s fun s => binaryMem divOp d s

/-- `andm &var` (42_alu.md R110). -/
def execAndm (d : Byte) (s : State) : Host.Outcome State Fault Refusal :=
  runInstr (.andm d) s fun s => binaryMem (pureOp aluAnd) d s

/-- `orm &var` (42_alu.md R111). -/
def execOrm (d : Byte) (s : State) : Host.Outcome State Fault Refusal :=
  runInstr (.orm d) s fun s => binaryMem (pureOp aluOr) d s

/-- `xorm &var` (42_alu.md R112). -/
def execXorm (d : Byte) (s : State) : Host.Outcome State Fault Refusal :=
  runInstr (.xorm d) s fun s => binaryMem (pureOp aluXor) d s

/-! ## Shift and complement -/

/-- `lsh` (42_alu.md R115). -/
def execLsh (s : State) : Host.Outcome State Fault Refusal :=
  runInstr .lsh s fun s => pushResult (shifted aluShl s)

/-- `rsh` (42_alu.md R116). -/
def execRsh (s : State) : Host.Outcome State Fault Refusal :=
  runInstr .rsh s fun s => pushResult (shifted aluShr s)

/-- `lshm &var` (42_alu.md R117). -/
def execLshm (d : Byte) (s : State) : Host.Outcome State Fault Refusal :=
  runInstr (.lshm d) s fun s => storeResult d (shifted aluShl s)

/-- `rshm &var` (42_alu.md R118). -/
def execRshm (d : Byte) (s : State) : Host.Outcome State Fault Refusal :=
  runInstr (.rshm d) s fun s => storeResult d (shifted aluShr s)

/-- `not` (42_alu.md R119). -/
def execNot (s : State) : Host.Outcome State Fault Refusal :=
  runInstr .not s fun s => pushResult (complemented s)

/-- `notm &var` (42_alu.md R120). -/
def execNotm (d : Byte) (s : State) : Host.Outcome State Fault Refusal :=
  runInstr (.notm d) s fun s => storeResult d (complemented s)

/-! ## Increment and decrement -/

/-- `inc &var` (42_alu.md R121). -/
def execInc (d : Byte) (s : State) : Host.Outcome State Fault Refusal :=
  runInstr (.inc d) s fun s => updateCell (fun v => aluAdd v 1) d s

/-- `dec &var` (42_alu.md R122). -/
def execDec (d : Byte) (s : State) : Host.Outcome State Fault Refusal :=
  runInstr (.dec d) s fun s => updateCell (fun v => aluSub v 1) d s

end Sys2Proof.Machine
end

