-- ==== Sys2Proof/Machine/Flags.lean ====
section
/-! DEFINITION. The comparison flag: how a compare computes it (43_control.md R123) and the condition each
conditional jump reads from it (R128-R133). -/

namespace Sys2Proof.Machine

/-- `Compare(x, y)`, unsigned, `x` the first operand of the instruction (43_control.md R123). -/
def compareFlag (x y : Byte) : Flag :=
  if x.toNat = y.toNat then .equal else if y.toNat < x.toNat then .greater else .less

/-- `jeq` (43_control.md R128). -/
def condEq (f : Flag) : Bool := f == .equal
/-- `jne` (43_control.md R129). -/
def condNe (f : Flag) : Bool := f != .equal
/-- `jgt` (43_control.md R130). -/
def condGt (f : Flag) : Bool := f == .greater
/-- `jlt` (43_control.md R131). -/
def condLt (f : Flag) : Bool := f == .less
/-- `jge` (43_control.md R132). -/
def condGe (f : Flag) : Bool := f != .less
/-- `jle` (43_control.md R133). -/
def condLe (f : Flag) : Bool := f != .greater

end Sys2Proof.Machine
end

