-- ==== Sys2Proof/Machine/Control.lean ====
section
/-! DEFINITION. Compare, jumps, call and return (43_control.md R123-R135). -/

namespace Sys2Proof.Machine

open Sys2Proof.Config

/-! ## Compare -/

/-- `cmp &var, imm` (43_control.md R124). -/
def execCmp (d imm : Byte) (s : State) : Host.Outcome State Fault Refusal :=
  runInstr (.cmp d imm) s fun s => do
    let x ← dataRead s (dataOffset d)
    return { s with flag := compareFlag x imm }

/-- `cmpm &a, &b` (43_control.md R125). -/
def execCmpm (d1 d2 : Byte) (s : State) : Host.Outcome State Fault Refusal :=
  runInstr (.cmpm d1 d2) s fun s => do
    let x ← dataRead s (dataOffset d1)
    let y ← dataRead s (dataOffset d2)
    return { s with flag := compareFlag x y }

/-! ## Jumps -/

/-- `if Cond(flag): pc <- PROG_BASE + t` (43_control.md R126). -/
def jumpIf (cond : Flag → Bool) (t : Byte) (s : State) : Res State :=
  .ok (if cond s.flag then { s with pc := targetAddr t } else s)

/-- `jmp label` (43_control.md R127). -/
def execJmp (t : Byte) (s : State) : Host.Outcome State Fault Refusal :=
  runInstr (.jmp t) s fun s => jumpIf (fun _ => true) t s

/-- `jeq label` (43_control.md R128). -/
def execJeq (t : Byte) (s : State) : Host.Outcome State Fault Refusal :=
  runInstr (.jeq t) s fun s => jumpIf condEq t s

/-- `jne label` (43_control.md R129). -/
def execJne (t : Byte) (s : State) : Host.Outcome State Fault Refusal :=
  runInstr (.jne t) s fun s => jumpIf condNe t s

/-- `jgt label` (43_control.md R130). -/
def execJgt (t : Byte) (s : State) : Host.Outcome State Fault Refusal :=
  runInstr (.jgt t) s fun s => jumpIf condGt t s

/-- `jlt label` (43_control.md R131). -/
def execJlt (t : Byte) (s : State) : Host.Outcome State Fault Refusal :=
  runInstr (.jlt t) s fun s => jumpIf condLt t s

/-- `jge label` (43_control.md R132). -/
def execJge (t : Byte) (s : State) : Host.Outcome State Fault Refusal :=
  runInstr (.jge t) s fun s => jumpIf condGe t s

/-- `jle label` (43_control.md R133). -/
def execJle (t : Byte) (s : State) : Host.Outcome State Fault Refusal :=
  runInstr (.jle t) s fun s => jumpIf condLe t s

/-! ## Call and return -/

/-- Push `pc` (already past the operand) and jump (43_control.md R134). -/
def callTo (t : Byte) (s : State) : Res State :=
  if s.cstack.length = CALL_CAP then raise .callOverflow
  else .ok { s with cstack := s.pc :: s.cstack, pc := targetAddr t }

/-- `call label` (43_control.md R134). -/
def execCall (t : Byte) (s : State) : Host.Outcome State Fault Refusal :=
  runInstr (.call t) s fun s => callTo t s

/-- Pop the call stack into `pc` (43_control.md R135). -/
def returnFrom (s : State) : Res State :=
  match s.cstack with
  | [] => raise .callUnderflow
  | r :: rest => .ok { s with cstack := rest, pc := r }

/-- `ret` (43_control.md R135). -/
def execRet (s : State) : Host.Outcome State Fault Refusal :=
  runInstr .ret s fun s => returnFrom s

end Sys2Proof.Machine
end

