-- ==== Sys2Proof/Machine/Stack.lean ====
section
/-! DEFINITION. The stack transfer instructions (41_stack.md R93-R95). -/

namespace Sys2Proof.Machine

/-- `push imm` (41_stack.md R93). -/
def execPush (imm : Byte) (s : State) : Host.Outcome State Fault Refusal :=
  runInstr (.push imm) s fun s => push (.lit imm) s

/-- `pushm &var` (41_stack.md R94): the data cell is not read. -/
def execPushm (d : Byte) (s : State) : Host.Outcome State Fault Refusal :=
  runInstr (.pushm d) s fun s => push (.mem d) s

/-- `v := Pop(); DataWrite(d, Unpack(v))` (41_stack.md R95). -/
def popToMem (d : Byte) (s : State) : Res State := do
  let (v, s) ← pop s
  let n ← unpack s v
  dataWrite s (dataOffset d) n

/-- `pop &var` (41_stack.md R95). -/
def execPop (d : Byte) (s : State) : Host.Outcome State Fault Refusal :=
  runInstr (.pop d) s fun s => popToMem d s

end Sys2Proof.Machine
end

