-- ==== Sys2Proof/Machine/Surface.lean ====
section
/-! DEFINITION. The peripheral surface (60_exceptions.md R152-R157): its pixel buffer is the video region
(20_memory.md R40). -/

namespace Sys2Proof.Machine

open Sys2Proof.Config

/-- The cell of pixel `(x, y)` (20_memory.md R40). -/
def pixelAddr (x y : Nat) : Nat := VIDEO_BASE + x + y * VIDEO_W

/-- `InClip(x, y)` (60_exceptions.md R153): inside the viewport and inside the screen. -/
def inClip (v : Viewport) (x y : Nat) : Bool :=
  decide (v.vx ≤ x ∧ x < v.vx + v.vw ∧ v.vy ≤ y ∧ y < v.vy + v.vh ∧ x < VIDEO_W ∧ y < VIDEO_H)

/-- `Surf.clear(c)` (60_exceptions.md R155). The viewport does not limit it. -/
def surfClear (c : Byte) (s : State) : State :=
  { s with mem := s.mem.fill VIDEO_BASE VIDEO_SIZE c, dirty := true }

/-- One pixel, if it is inside the clip (60_exceptions.md R156). -/
def drawPixel (v : Viewport) (x y : Nat) (c : Byte) (m : Memory) : Memory :=
  if inClip v x y then m.write (pixelAddr x y) c else m

/-- `Surf.put(x, y, c)` (60_exceptions.md R156). It sets `dirty` even when it writes no pixel (R154). -/
def surfPut (x y : Nat) (c : Byte) (s : State) : State :=
  { s with mem := drawPixel s.viewport x y c s.mem, dirty := true }

/-- First data offset of a block's frame: `off + 64 * f` (60_exceptions.md R157). -/
def frameBase (off f : Byte) : Nat := dataOffset off + FRAME_CELLS * f.toNat

/-- Pixel `k = 8*j + i` of a block whose source starts at data offset `base`, drawn at `(x + i, y + j)`
(60_exceptions.md R157: row by row). -/
def blitPixel (v : Viewport) (x y base : Nat) (m : Memory) (k : Nat) : Memory :=
  drawPixel v (x + k % BLIT_W) (y + k / BLIT_W) (m.read (dataAddr (base + k))) m

/-- `Surf.blit(x, y, off, f)` (60_exceptions.md R157): the whole source block is checked before any pixel
is written. -/
def surfBlit (x y : Nat) (off f : Byte) (s : State) : Res State :=
  let base := frameBase off f
  if DATA_SIZE ≤ base + (FRAME_CELLS - 1) then boundary (dataAddr (max base DATA_SIZE))
  else .ok
    { s with
      mem := (List.range FRAME_CELLS).foldl (blitPixel s.viewport x y base) s.mem, dirty := true }

/-! ## The host's calls (60_exceptions.md R158, R159) -/

/-- `viewport(x, y, w, h)` (60_exceptions.md R158). It does not set `dirty` (R154). -/
def setViewport (x y w h : Nat) (s : State) : State := { s with viewport := ⟨x, y, w, h⟩ }

/-- `viewportReset()` (60_exceptions.md R158). -/
def resetViewport (s : State) : State := { s with viewport := fullViewport }

/-- `markPresented()` (60_exceptions.md R159). -/
def markPresented (s : State) : State := { s with dirty := false }

end Sys2Proof.Machine
end

