-- ==== Sys2Proof/Machine/Draw.lean ====
section
/-! DEFINITION. The draw instructions (44_system.md R140-R143). -/

namespace Sys2Proof.Machine

/-- "The first pop is X and the second is Y"; both are unpacked after both pops, X first
(44_system.md R140). -/
def popXY (s : State) : Res (Byte × Byte × State) := do
  let (vx, s) ← pop s
  let (vy, s) ← pop s
  let x ← unpack s vx
  let y ← unpack s vy
  return (x, y, s)

/-- An optional value: 0 if the stack is empty, else the unpacked top, which is popped
(44_system.md R139, R143). -/
def popOptional (s : State) : Res (Byte × State) :=
  if isEmpty s then .ok (0, s)
  else do
    let (v, s) ← pop s
    let n ← unpack s v
    return (n, s)

/-- `putp imm` (44_system.md R141). -/
def execPutp (imm : Byte) (s : State) : Host.Outcome State Fault Refusal :=
  runInstr (.putp imm) s fun s => do
    let (x, y, s) ← popXY s
    return surfPut x.toNat y.toNat imm s

/-- `putpm &var` (44_system.md R142). -/
def execPutpm (d : Byte) (s : State) : Host.Outcome State Fault Refusal :=
  runInstr (.putpm d) s fun s => do
    let (x, y, s) ← popXY s
    let c ← dataRead s (dataOffset d)
    return surfPut x.toNat y.toNat c s

/-- `puts &var` (44_system.md R143). -/
def execPuts (d : Byte) (s : State) : Host.Outcome State Fault Refusal :=
  runInstr (.puts d) s fun s => do
    let (x, y, s) ← popXY s
    let (f, s) ← popOptional s
    surfBlit x.toNat y.toNat d f s

end Sys2Proof.Machine
end

