-- ==== Sys2Proof/Machine/System.lean ====
section
/-! DEFINITION. Halt, wait, nop, the system call (44_system.md R136-R139) and the illegal opcode
(30_encoding.md R65). -/

namespace Sys2Proof.Machine

open Sys2Proof.Config

/-- `halt` (44_system.md R136): `pc` is left past the `halt` byte. -/
def execHalt (s : State) : Host.Outcome State Fault Refusal :=
  runInstr .halt s fun s => .ok { s with halted := true }

/-- `wait` (44_system.md R137). -/
def execWait (s : State) : Host.Outcome State Fault Refusal :=
  runInstr .wait s fun s => do
    let (v, s) ← pop s
    let n ← unpack s v
    return { s with wait := n.toNat * waitScale }

/-- `nop` (44_system.md R138). -/
def execNop (s : State) : Host.Outcome State Fault Refusal :=
  runInstr .nop s fun s => .ok s

/-- `sys code` (44_system.md R139): the code is checked before the stack is touched. -/
def execSys (code : Byte) (s : State) : Host.Outcome State Fault Refusal :=
  runInstr (.sys code) s fun s =>
    if code = SYS_CLEAR_SCREEN then do
      let (c, s) ← popOptional s
      return surfClear c s
    else raise .illegalSyscall

/-- A byte that encodes no instruction raises ILLEGAL_OPCODE, and the record's `opcode` field holds it
(30_encoding.md R65, 40_cycle.md R85). -/
def execIllegal (op : Byte) (s : State) : Host.Outcome State Fault Refusal :=
  runInstr (.illegal op) s fun _ => raise .illegalOpcode

end Sys2Proof.Machine
end

