-- ==== Sys2Proof/Machine/Dispatch.lean ====
section
/-! DEFINITION. The dispatch of 40_cycle.md R82: one arm per constructor of Instr, each a direct call of
that instruction's meaning. -/

namespace Sys2Proof.Machine

def exec (i : Instr) (s : State) : Host.Outcome State Fault Refusal :=
  match i with
  | .halt => Sys2Proof.Machine.execHalt s
  | .push imm => Sys2Proof.Machine.execPush imm s
  | .pushm d => Sys2Proof.Machine.execPushm d s
  | .pop d => Sys2Proof.Machine.execPop d s
  | .wait => Sys2Proof.Machine.execWait s
  | .add => Sys2Proof.Machine.execAdd s
  | .sub => Sys2Proof.Machine.execSub s
  | .mul => Sys2Proof.Machine.execMul s
  | .div => Sys2Proof.Machine.execDiv s
  | .and => Sys2Proof.Machine.execAnd s
  | .or => Sys2Proof.Machine.execOr s
  | .xor => Sys2Proof.Machine.execXor s
  | .addm d => Sys2Proof.Machine.execAddm d s
  | .subm d => Sys2Proof.Machine.execSubm d s
  | .mulm d => Sys2Proof.Machine.execMulm d s
  | .divm d => Sys2Proof.Machine.execDivm d s
  | .andm d => Sys2Proof.Machine.execAndm d s
  | .orm d => Sys2Proof.Machine.execOrm d s
  | .xorm d => Sys2Proof.Machine.execXorm d s
  | .lsh => Sys2Proof.Machine.execLsh s
  | .rsh => Sys2Proof.Machine.execRsh s
  | .lshm d => Sys2Proof.Machine.execLshm d s
  | .rshm d => Sys2Proof.Machine.execRshm d s
  | .not => Sys2Proof.Machine.execNot s
  | .notm d => Sys2Proof.Machine.execNotm d s
  | .inc d => Sys2Proof.Machine.execInc d s
  | .dec d => Sys2Proof.Machine.execDec d s
  | .cmp d imm => Sys2Proof.Machine.execCmp d imm s
  | .cmpm d1 d2 => Sys2Proof.Machine.execCmpm d1 d2 s
  | .jmp t => Sys2Proof.Machine.execJmp t s
  | .jeq t => Sys2Proof.Machine.execJeq t s
  | .jne t => Sys2Proof.Machine.execJne t s
  | .jgt t => Sys2Proof.Machine.execJgt t s
  | .jlt t => Sys2Proof.Machine.execJlt t s
  | .jge t => Sys2Proof.Machine.execJge t s
  | .jle t => Sys2Proof.Machine.execJle t s
  | .call t => Sys2Proof.Machine.execCall t s
  | .ret => Sys2Proof.Machine.execRet s
  | .putp imm => Sys2Proof.Machine.execPutp imm s
  | .putpm d => Sys2Proof.Machine.execPutpm d s
  | .puts d => Sys2Proof.Machine.execPuts d s
  | .sys code => Sys2Proof.Machine.execSys code s
  | .nop => Sys2Proof.Machine.execNop s
  | .illegal op => Sys2Proof.Machine.execIllegal op s

end Sys2Proof.Machine
end

