-- ==== Sys2Proof/Machine/Fetch.lean ====
section
/-! DEFINITION. Fetching and decoding one whole instruction (40_cycle.md R84-R86), and placing an
instruction where the next tick fetches it. -/

namespace Sys2Proof.Machine

open Sys2Proof.Config

/-- The instruction at `pc`: the opcode cell, then its operand cells in byte order, each by `FetchByte`
(40_cycle.md R84-R86). A failing fetch gives the fault it raises, with the opcode cell if that was
fetched (60_exceptions.md R145). -/
def fetchInstr (s : State) : Except (Option Byte × Raise) Instr :=
  match fetchByte s with
  | .error r => .error (none, r)
  | .ok (op, s1) =>
    match decodeOpcode op with
    | .none i => .ok i
    | .one k =>
      match fetchByte s1 with
      | .error r => .error (some op, r)
      | .ok (b, _) => .ok (k b)
    | .two k =>
      match fetchByte s1 with
      | .error r => .error (some op, r)
      | .ok (b, s2) =>
        match fetchByte s2 with
        | .error r => .error (some op, r)
        | .ok (c, _) => .ok (k b c)

/-- The table word `w` (numbered as spec/opcode_table.json numbers it) stored where the next tick fetches:
at `pc`, or at PROG_BASE if the longest instruction does not fit in the program region at `pc`. The engine
is made ready to execute: not halted, no wait pending. It stands for the host's program load (log 5). -/
def placeWord (s : State) (nbits w : Nat) : State :=
  let at0 := if s.pc + maxLength ≤ PROG_BASE + PROG_SIZE then s.pc else PROG_BASE
  { s with
    pc := at0, halted := false, wait := 0, mem := s.mem.writeAll at0 (tableBytes nbits w) }

end Sys2Proof.Machine
end

