-- ==== Sys2Proof/Machine/Tick.lean ====
section
/-! DEFINITION. One tick of the engine (40_cycle.md R82). -/

namespace Sys2Proof.Machine

/-- The third stage of the tick: exactly one instruction, or the fault of its fetch
(40_cycle.md R82, 60_exceptions.md R145, R146). -/
def tickInstr (s : State) : Host.Outcome State Fault Refusal :=
  match fetchInstr s with
  | .ok i => exec i s
  | .error (op, r) => .next (takeFault s op r)

/-- `tick()` (40_cycle.md R82): nothing on a halted engine, one count of a nonzero wait counter, otherwise
one instruction. It never reads `dirty`: that is the harness (60_exceptions.md R162, log 5). -/
def tick (s : State) : Host.Outcome State Fault Refusal :=
  if s.halted then .next s
  else if 0 < s.wait then .next (countDown s)
  else tickInstr s

end Sys2Proof.Machine
end

