-- ==== Sys2Proof/Machine/Step.lean ====
section
/-! DEFINITION. The step of the machine: one tick of the engine. -/

namespace Sys2Proof.Machine

/-- One tick (40_cycle.md R82), under the standalone harness of 60_exceptions.md R162 (log 5). -/
def step (s : State) : Host.Outcome State Fault Refusal := tick s

/-- `s` with the instruction of a table word placed where `step` fetches next. -/
def State.withFetchWord (s : State) (nbits w : Nat) : State := placeWord s nbits w

end Sys2Proof.Machine
end

