-- ==== Sys2Proof/Machine/Loader.lean ====
section
/-! DEFINITION. The program load (70_reset_and_hazards.md R169). -/

namespace Sys2Proof.Machine

open Sys2Proof.Config

/-- What a successful assembly yields (30_encoding.md R79): the program image, the data image as
(data offset, value) pairs, and the count of `let` cells. -/
structure Image where
  prog : List Byte
  data : List (Nat × Byte)
  nlet : Nat
deriving DecidableEq, Repr

/-- The bounds a load must keep (70_reset_and_hazards.md R169), with every data offset inside the data
region (log 4). -/
def Image.fits (im : Image) : Bool :=
  decide (im.prog.length ≤ PROG_SIZE) && decide (im.nlet ≤ DATA_SIZE) &&
    im.data.all fun c => decide (c.1 < DATA_SIZE)

/-- `for (off, v) in dimg: mem[DATA_BASE + off] <- v` (70_reset_and_hazards.md R169). -/
def writeData (m : Memory) (data : List (Nat × Byte)) : Memory :=
  data.foldl (fun m c => m.write (dataAddr c.1) c.2) m

/-- The effect of a load that is allowed (70_reset_and_hazards.md R169). Every other cell keeps its
contents. -/
def loadImage (im : Image) (s : State) : State :=
  engineReset
    { s with
      mem := writeData (s.mem.writeAll PROG_BASE im.prog) im.data
      arena := im.nlet, used := [], freel := [] }

end Sys2Proof.Machine
end

