-- ==== Sys2Proof/Machine/Assembler.lean ====
section
/-! DEFINITION. The two-pass assembler (30_encoding.md R68-R81), from source text to an image. No rule of
the engine depends on it (00_scope.md R3). -/

namespace Sys2Proof.Machine

open Sys2Proof.Config

/-- A name or lexeme, as its characters. -/
abbrev Lexeme := List Char

/-- The tokens of 30_encoding.md R69-R71. -/
inductive Token where
  | opcode (op : Byte)
  | ident (name : Lexeme)
  | ref (name : Lexeme)
  | labelDecl (name : Lexeme)
  | num (n : Nat)
  | letKw
  | lbrack
  | rbrack
  | comma
deriving DecidableEq, Repr

/-- Why an assembly aborts (30_encoding.md R73, R74, R75, R77, R78), with the offending lexeme or token. -/
inductive AsmError where
  /-- syntax: a `let` whose name is not a plain identifier (R73) -/
  | letName (found : Option Token)
  /-- syntax: an initializer value that is not a number (R73) -/
  | letValue (name : Lexeme) (found : Option Token)
  /-- syntax: missing comma between numbers (R73) -/
  | listComma (name : Lexeme) (n : Nat)
  /-- syntax: unterminated bracket (R73) -/
  | listOpen (name : Lexeme)
  /-- syntax: an empty list (R73) -/
  | listEmpty (name : Lexeme)
  /-- syntax: a bracket outside a `let` initializer (R71) -/
  | bracket
  /-- resolution: a name declared twice by `let` (R73) -/
  | duplicateLet (name : Lexeme)
  /-- resolution: a label declared twice (R74) -/
  | duplicateLabel (name : Lexeme)
  /-- resolution: undefined label (R75) -/
  | undefinedLabel (name : Lexeme)
  /-- resolution: undefined reference (R75) -/
  | undefinedReference (name : Lexeme)
  /-- resolution: an atom or `let` value above 255 (R77) -/
  | tooLarge (n : Nat)
  /-- resolution: an encoded stream longer than PROG_SIZE (R77) -/
  | programTooLong
  /-- resolution: `let` cells exceeding DATA_SIZE (R77) -/
  | dataTooLong
deriving DecidableEq, Repr

/-! ## The tokenizer (30_encoding.md R68-R71) -/

/-- "start with a letter, underscore, or `&`" (30_encoding.md R69). -/
def startsWord (c : Char) : Bool := c.isAlpha || c == '_' || c == '&'

/-- "continue while alphanumeric, underscore, `&`, or `:`" (30_encoding.md R69). -/
def inWord (c : Char) : Bool := c.isAlphanum || c == '_' || c == '&' || c == ':'

/-- The value of a hexadecimal digit (30_encoding.md R70). -/
def hexDigit (c : Char) : Option Nat :=
  if c.isDigit then some (c.toNat - '0'.toNat)
  else if 'a' ≤ c ∧ c ≤ 'f' then some (c.toNat - 'a'.toNat + 10)
  else if 'A' ≤ c ∧ c ≤ 'F' then some (c.toNat - 'A'.toNat + 10)
  else none

/-- A lexeme in lower case, for the case-insensitive matches (30_encoding.md R68, R69). -/
def lower (w : Lexeme) : Lexeme := w.map Char.toLower

/-- The opcode whose mnemonic a lexeme matches case-insensitively (30_encoding.md R69, R81). -/
def mnemonicOpcode (w : Lexeme) : Option Byte :=
  (opcodeTable.find? fun r => r.mnemonic == lower w).map OpcodeRow.opcode

/-- The token of a whole word, its cases in the order of 30_encoding.md R69 (log 6). -/
def wordToken (w : Lexeme) : Token :=
  if w.head? == some '&' then .ref w.tail
  else if w.getLast? == some ':' then .labelDecl w.dropLast
  else if lower w == ['l', 'e', 't'] then .letKw
  else
    match mnemonicOpcode w with
    | some op => .opcode op
    | none => .ident w

/-- What the scan is in the middle of. -/
inductive Scan where
  | idle
  /-- after `;`, up to the end of the line (30_encoding.md R68) -/
  | comment
  /-- in a word, its characters last first -/
  | word (rev : Lexeme)
  /-- after a first digit `0`, which may begin `0x` -/
  | zero
  | dec (n : Nat)
  | hex (n : Nat)
deriving DecidableEq, Repr

/-- The token a scan ends, if any. -/
def Scan.flush : Scan → List Token
  | .idle | .comment => []
  | .word rev => [wordToken rev.reverse]
  | .zero => [.num 0]
  | .dec n | .hex n => [.num n]

/-- A character met between tokens (30_encoding.md R68-R71). All other characters are skipped. -/
def scanStart (c : Char) : List Token × Scan :=
  if c == ';' then ([], .comment)
  else if startsWord c then ([], .word [c])
  else if c == '0' then ([], .zero)
  else if c.isDigit then ([], .dec (c.toNat - '0'.toNat))
  else if c == '[' then ([.lbrack], .idle)
  else if c == ']' then ([.rbrack], .idle)
  else if c == ',' then ([.comma], .idle)
  else ([], .idle)

/-- A character that ends the token a scan is in, and is then met between tokens. -/
def scanEnd (st : Scan) (c : Char) : List Token × Scan :=
  let (ts, st') := scanStart c
  (st.flush ++ ts, st')

/-- One character of the left-to-right scan (30_encoding.md R69, R70). -/
def scanChar (st : Scan) (c : Char) : List Token × Scan :=
  match st with
  | .idle => scanStart c
  | .comment => ([], if c == '\n' then .idle else .comment)
  | .word rev => if inWord c then ([], .word (c :: rev)) else scanEnd st c
  | .zero =>
    if c == 'x' || c == 'X' then ([], .hex 0)
    else if c.isDigit then ([], .dec (c.toNat - '0'.toNat))
    else scanEnd st c
  | .dec n => if c.isDigit then ([], .dec (10 * n + (c.toNat - '0'.toNat))) else scanEnd st c
  | .hex n =>
    match hexDigit c with
    | some v => ([], .hex (16 * n + v))
    | none => scanEnd st c

/-- The token list of a text, from the scan's state on. -/
def tokenize : Scan → List Char → List Token
  | st, [] => st.flush
  | st, c :: cs =>
    let (ts, st') := scanChar st c
    ts ++ tokenize st' cs

/-! ## Pass 1: `let` declarations (30_encoding.md R72, R73) -/

/-- A table of names. -/
abbrev Names := List (Lexeme × Nat)

/-- What pass 1 has read: the variable table, the cells in data-pointer order, the tokens that remain. -/
structure Pass1 where
  vars : Names
  cells : List Byte
  rest : List Token
deriving DecidableEq, Repr

/-- Where pass 1 is in a `let` form. -/
inductive LetState where
  | outside
  /-- after `let` -/
  | name
  /-- after `let x` -/
  | named (x : Lexeme)
  /-- after `let x,` -/
  | value (x : Lexeme)
  /-- in `let x, [ ...`, a value is next -/
  | item (x : Lexeme) (vs : List Nat)
  /-- in `let x, [ ... v`, a comma or the bracket is next -/
  | sep (x : Lexeme) (vs : List Nat)
deriving DecidableEq, Repr

/-- A number as one cell (30_encoding.md R77). -/
def cellOf (n : Nat) : Except AsmError Byte :=
  if n ≤ 255 then .ok (toCell n) else .error (.tooLarge n)

/-- Record `x` at the data pointer and allocate its cells (30_encoding.md R72). -/
def declareVar (p : Pass1) (x : Lexeme) (vs : List Nat) : Except AsmError Pass1 :=
  if (p.vars.lookup x).isSome then .error (.duplicateLet x)
  else do
    let cs ← vs.mapM cellOf
    return { p with vars := p.vars ++ [(x, p.cells.length)], cells := p.cells ++ cs }

/-- A token outside every `let` form (30_encoding.md R71, R72). -/
def pass1Outside (p : Pass1) (t : Token) : Except AsmError (LetState × Pass1) :=
  match t with
  | .letKw => .ok (.name, p)
  | .lbrack | .rbrack => .error .bracket
  | .comma => .ok (.outside, p)
  | t => .ok (.outside, { p with rest := p.rest ++ [t] })

/-- One token of pass 1 (30_encoding.md R72, R73). -/
def pass1Token (st : LetState) (p : Pass1) (t : Token) : Except AsmError (LetState × Pass1) :=
  match st, t with
  | .outside, t => pass1Outside p t
  | .name, .ident x => .ok (.named x, p)
  | .name, t => .error (.letName (some t))
  | .named x, .comma => .ok (.value x, p)
  | .named x, t => do
    let p ← declareVar p x [0]
    pass1Outside p t
  | .value x, .num v => do
    let p ← declareVar p x [v]
    return (.outside, p)
  | .value x, .lbrack => .ok (.item x [], p)
  | .value x, t => .error (.letValue x (some t))
  | .item x vs, .num v => .ok (.sep x (vs ++ [v]), p)
  | .item x [], .rbrack => .error (.listEmpty x)
  | .item x _, t => .error (.letValue x (some t))
  | .sep x vs, .comma => .ok (.item x vs, p)
  | .sep x vs, .rbrack => do
    let p ← declareVar p x vs
    return (.outside, p)
  | .sep x _, .num v => .error (.listComma x v)
  | .sep x _, _ => .error (.listOpen x)

/-- The end of the text in pass 1. -/
def pass1End (st : LetState) (p : Pass1) : Except AsmError Pass1 :=
  match st with
  | .outside => .ok p
  | .name => .error (.letName none)
  | .named x => declareVar p x [0]
  | .value x => .error (.letValue x none)
  | .item x _ | .sep x _ => .error (.listOpen x)

/-- Pass 1 over the whole token list. -/
def pass1 (st : LetState) (p : Pass1) : List Token → Except AsmError Pass1
  | [] => pass1End st p
  | t :: ts => do
    let (st, p) ← pass1Token st p t
    pass1 st p ts

/-! ## Pass 2: labels (30_encoding.md R74) -/

/-- "every identifier, number, opcode, or reference token advances the position counter by one"
(30_encoding.md R74). These are the tokens that are encoded (R75). -/
def Token.advances : Token → Bool
  | .opcode _ | .ident _ | .ref _ | .num _ => true
  | .labelDecl _ | .letKw | .lbrack | .rbrack | .comma => false

/-- Every label is the position of the encoded token that follows it (30_encoding.md R74). The result is the
label table and the tokens to encode. Pass 1 has dropped every comma, bracket and `let` already. -/
def pass2 (labels : Names) (pos : Nat) : List Token → Except AsmError (Names × List Token)
  | [] => .ok (labels, [])
  | .labelDecl x :: ts =>
    if (labels.lookup x).isSome then .error (.duplicateLabel x)
    else pass2 (labels ++ [(x, pos)]) pos ts
  | t :: ts =>
    if t.advances then do
      let (labels, rest) ← pass2 labels (pos + 1) ts
      return (labels, t :: rest)
    else pass2 labels pos ts

/-! ## Encoding (30_encoding.md R75-R77) -/

/-- The cell of one token: an opcode byte or a resolved atom (30_encoding.md R75). Operand counts are not
validated (R76). -/
def encodeToken (labels vars : Names) : Token → Except AsmError (List Byte)
  | .opcode op => .ok [op]
  | .num n => do
    let b ← cellOf n
    return [b]
  | .ident x =>
    match labels.lookup x with
    | none => .error (.undefinedLabel x)
    | some pos => do
      let b ← cellOf pos
      return [b]
  | .ref x =>
    match vars.lookup x with
    | none => .error (.undefinedReference x)
    | some off => do
      let b ← cellOf off
      return [b]
  | .labelDecl _ | .letKw | .lbrack | .rbrack | .comma => .ok []

/-- The data image: one (data offset, value) pair per `let` cell (30_encoding.md R79). -/
def dataImage (cells : List Byte) : List (Nat × Byte) := cells.zipIdx.map fun c => (c.2, c.1)

/-- The whole assembly (30_encoding.md R78, R79): an image, or the first error found and no image. -/
def assemble (src : List Char) : Except AsmError Image := do
  let p ← pass1 .outside ⟨[], [], []⟩ (tokenize .idle src)
  if DATA_SIZE < p.cells.length then .error .dataTooLong
  else
    let (labels, rest) ← pass2 [] 0 p.rest
    let bytes ← rest.mapM (encodeToken labels p.vars)
    if PROG_SIZE < bytes.flatten.length then .error .programTooLong
    else return ⟨bytes.flatten, dataImage p.cells, p.cells.length⟩

end Sys2Proof.Machine
end

