-- ==== Sys2Proof/Machine/Allocator.lean ====
section
/-! DEFINITION. The data-region allocator (20_memory.md R54-R59): a host service; no instruction calls it. -/

namespace Sys2Proof.Machine

open Sys2Proof.Config

/-- Errors returned to the host caller (20_memory.md R58). They are not engine faults. -/
inductive AllocError where
  | allocZero
  | allocExhausted
  | freeUnknown
deriving DecidableEq, Repr

/-- A block a request of `size` cells fits in. -/
def Block.fits (size : Nat) (b : Block) : Bool := decide (size ≤ b.cap)

/-- A block that starts at data offset `off`. -/
def Block.startsAt (off : Nat) (b : Block) : Bool := decide (b.off = off)

/-- `alloc(size)` (20_memory.md R55): the first free block that fits, whole; else the arena grows. -/
def alloc (size : Nat) (s : State) : Except AllocError (Nat × State) :=
  if size = 0 then .error .allocZero
  else
    match s.freel.find? (Block.fits size) with
    | some b =>
      .ok (b.off, { s with freel := s.freel.eraseP (Block.fits size), used := s.used ++ [b] })
    | none =>
      if DATA_SIZE < s.arena + size then .error .allocExhausted
      else .ok (s.arena, { s with arena := s.arena + size, used := s.used ++ [⟨s.arena, size⟩] })

/-- `free(addr)` (20_memory.md R56): appended at the tail of the free list, never merged. -/
def free (off : Nat) (s : State) : Except AllocError State :=
  match s.used.find? (Block.startsAt off) with
  | none => .error .freeUnknown
  | some b => .ok { s with used := s.used.eraseP (Block.startsAt off), freel := s.freel ++ [b] }

end Sys2Proof.Machine
end

