-- ==== Sys2Proof/Machine/Console.lean ====
section
/-! DEFINITION. The host: its actions between ticks (60_exceptions.md R161), the two harnesses (R162), and
the memory ports (20_memory.md R36, R37, R52, R53). -/

namespace Sys2Proof.Machine

open Sys2Proof.Config

/-- The rule that decides when the host issues a tick, chosen per run (60_exceptions.md R162). -/
inductive Harness where
  | integrated
  | standalone
deriving DecidableEq, Repr

/-- Whether the host issues a tick (60_exceptions.md R162). -/
def tickIssued : Harness → State → Bool
  | .integrated, s => !s.halted && !s.dirty
  | .standalone, s => !s.halted

/-- The four regions (20_memory.md R34). -/
inductive Region where
  | program
  | video
  | data
  | config
deriving DecidableEq, Repr

/-- The accessors `program()`, `video()`, `data()`, `config()` (20_memory.md R36). -/
def Region.base : Region → Nat
  | .program => PROG_BASE
  | .video => VIDEO_BASE
  | .data => DATA_BASE
  | .config => CONFIG_BASE

/-- Lengths of the regions (20_memory.md R34). -/
def Region.size : Region → Nat
  | .program => PROG_SIZE
  | .video => VIDEO_SIZE
  | .data => DATA_SIZE
  | .config => CONFIG_SIZE

/-- Whether an address lies in a region (20_memory.md R34). -/
abbrev Region.holds (r : Region) (a : Nat) : Prop := r.base ≤ a ∧ a < r.base + r.size

/-- The console as the host sees it: the architectural state, and whether a tick was issued since power-on,
which 70_reset_and_hazards.md R169 asks for and the state tuple of R16 does not hold (log 2). -/
structure Console where
  core : State
  ticked : Bool
deriving DecidableEq, Repr

/-- Power-on (70_reset_and_hazards.md R167). -/
def Console.powerOn : Console := ⟨State.reset, false⟩

/-- "engine halted, or before the first tick" (60_exceptions.md R161). -/
def Console.quiet (c : Console) : Bool := c.core.halted || !c.ticked

/-- The host's actions (60_exceptions.md R161; rawRead, rawWrite: 20_memory.md R37, R53). -/
inductive HostAction where
  | load (im : Image)
  | reset
  | tick
  | present
  | viewport (x y w h : Nat)
  | viewportReset
  | quit
  | snapshot
  | alloc (size : Nat)
  | free (off : Nat)
  | readFault
  | readHalted
  | rawRead (addr : Nat)
  | rawWrite (addr : Nat) (v : Byte)
deriving DecidableEq, Repr

/-- What an action gives back to the host. -/
inductive HostReply where
  | done
  /-- the video region, read before `dirty` is cleared (60_exceptions.md R159) -/
  | frame (pixels : List Byte)
  /-- the whole array (20_memory.md R52) -/
  | cells (all : List Byte)
  | cell (v : Byte)
  /-- the data offset of an allocated block (20_memory.md R55) -/
  | block (off : Nat)
  | faultIs (f : Option FaultRecord)
  | haltedIs (b : Bool)
deriving DecidableEq, Repr

/-- Why an action is refused. A refused action changes nothing. -/
inductive HostError where
  /-- not at this time (60_exceptions.md R161, 20_memory.md R53) -/
  | notAllowed
  /-- the image breaks a bound (70_reset_and_hazards.md R169) -/
  | imageTooBig
  /-- the harness issues no tick (60_exceptions.md R162) -/
  | noTick
  /-- a raw access outside the array (20_memory.md R37, log 3) -/
  | outside (r : Raise)
  /-- the allocator's own error (20_memory.md R58) -/
  | allocator (e : AllocError)
  /-- an instruction without a meaning; there is none -/
  | engine (r : Refusal)
deriving DecidableEq, Repr

/-- Quit (60_exceptions.md R163). -/
def quit (s : State) : State := { s with halted := true }

/-- One host action, atomic and between two ticks (60_exceptions.md R161, 20_memory.md R47). That `rawWrite`
may write program and video cells while the engine is halted or before the first tick is the model's choice
(log 11): 20_memory.md R50 calls the program load the only writer of program cells and R40 the surface the only
writer of video cells, while R36, R37 and R53 give the host's raw port the whole array. -/
def Console.act (h : Harness) (a : HostAction) (c : Console) :
    Except HostError (HostReply × Console) :=
  match a with
  | .load im =>
    if c.quiet then
      if im.fits then .ok (.done, { c with core := loadImage im c.core }) else .error .imageTooBig
    else .error .notAllowed
  | .reset => .ok (.done, { c with core := engineReset c.core })
  | .tick =>
    if tickIssued h c.core then
      match step c.core with
      | .next s => .ok (.done, ⟨s, true⟩)
      | .fault r => nomatch r
      | .refused r => .error (.engine r)
    else .error .noTick
  | .present =>
    .ok (.frame (c.core.mem.copy VIDEO_BASE VIDEO_SIZE), { c with core := markPresented c.core })
  | .viewport x y w h => .ok (.done, { c with core := setViewport x y w h c.core })
  | .viewportReset => .ok (.done, { c with core := resetViewport c.core })
  | .quit => .ok (.done, { c with core := Sys2Proof.Machine.quit c.core })
  | .snapshot => .ok (.cells (c.core.mem.copy 0 MEM_SIZE), c)
  | .alloc size =>
    if c.quiet then
      match Sys2Proof.Machine.alloc size c.core with
      | .ok (off, s) => .ok (.block off, { c with core := s })
      | .error e => .error (.allocator e)
    else .error .notAllowed
  | .free off =>
    if c.quiet then
      match Sys2Proof.Machine.free off c.core with
      | .ok s => .ok (.done, { c with core := s })
      | .error e => .error (.allocator e)
    else .error .notAllowed
  | .readFault => .ok (.faultIs c.core.fault, c)
  | .readHalted => .ok (.haltedIs c.core.halted, c)
  | .rawRead addr =>
    match memRead c.core addr with
    | .ok v => .ok (.cell v, c)
    | .error r => .error (.outside r)
  | .rawWrite addr v =>
    if c.quiet then
      match memWrite c.core addr v with
      | .ok s => .ok (.done, { c with core := s })
      | .error r => .error (.outside r)
    else .error .notAllowed

/-- The console after an action; a refused one changes nothing. -/
def Console.after (h : Harness) (c : Console) (a : HostAction) : Console :=
  match c.act h a with
  | .ok (_, c') => c'
  | .error _ => c

/-- The actions of a host in their total order (20_memory.md R47). -/
def Console.run (h : Harness) (as : List HostAction) (c : Console) : Console :=
  as.foldl (Console.after h) c

end Sys2Proof.Machine
end

