-- ==== Sys2Proof/Safety.lean ====
section
/-! DEFINITION. What a run's end is (60_exceptions.md R164), the low-activity states (R166), the invariants
of the state (10_state.md R18, R21, R22, R26; 20_memory.md R57), and the terms statements are made in. -/

namespace Sys2Proof.Machine

open Sys2Proof.Config

/-- A run has ended (60_exceptions.md R164). -/
abbrev State.ended (s : State) : Prop := s.halted = true

/-- It ended normally: a `halt` or a quit (60_exceptions.md R164). -/
abbrev State.endedNormally (s : State) : Prop := s.halted = true ∧ s.fault = none

/-- It ended in a fault (60_exceptions.md R164). -/
abbrev State.endedInFault (s : State) : Prop := s.fault ≠ none

/-- Waiting: each tick only decrements the counter (60_exceptions.md R166). That a halted engine is not also
waiting is the model's choice (log 12). -/
abbrev State.waiting (s : State) : Prop := s.halted = false ∧ 0 < s.wait

/-- Paused under the integrated harness: no tick is issued until the host presents
(60_exceptions.md R162, R166). That a halted engine is not also paused is the model's choice (log 12). -/
abbrev State.paused (s : State) : Prop := s.halted = false ∧ s.dirty = true

/-- Two blocks share no cell. -/
abbrev Block.apart (b c : Block) : Prop := b.off + b.cap ≤ c.off ∨ c.off + c.cap ≤ b.off

/-- The allocator's invariant (20_memory.md R57): the blocks are pairwise disjoint, not empty, and lie in
`[0, arena)`, and the arena lies in the data region (R54). -/
abbrev State.allocInv (s : State) : Prop :=
  s.arena ≤ DATA_SIZE ∧
  (∀ b ∈ s.used ++ s.freel, 1 ≤ b.cap ∧ b.off + b.cap ≤ s.arena) ∧
  (s.used ++ s.freel).Pairwise Block.apart

/-- A fault record as a fault entry leaves it (60_exceptions.md R144, R145): only BOUNDARY records an
address, only BOUNDARY can come without an opcode, and `pc` was left at the opcode. -/
abbrev State.faultInv (s : State) : Prop :=
  ∀ f, s.fault = some f →
    s.halted = true ∧ s.pc = f.pc0 ∧
    (f.addr.isSome = true ↔ f.cause = .boundary) ∧ (f.opcode = none → f.cause = .boundary)

/-- The bounds of 10_state.md R18, R21, R22, R24 and the memory's canonical form. `pc` and return addresses
never pass the end of the program region, since every fetch is inside it. -/
abbrev State.boundsInv (s : State) : Prop :=
  s.pc ≤ PROG_BASE + PROG_SIZE ∧
  s.ostack.length ≤ STACK_CAP ∧
  s.cstack.length ≤ CALL_CAP ∧
  (∀ r ∈ s.cstack, r ≤ PROG_BASE + PROG_SIZE) ∧
  s.wait ≤ 255 * waitScale ∧
  s.mem.wf

/-- The invariant of the machine. -/
structure State.Inv (s : State) : Prop where
  bounds : s.boundsInv
  fault : s.faultInv
  alloc : s.allocInv

/-! ## Terms of the statements -/

/-- The fault state of 60_exceptions.md R145: the state at the start of the tick, halted, with its record. -/
abbrev State.faulted (s : State) (cause : FaultCause) (op : Option Byte) (addr : Option Nat) : State :=
  { s with halted := true, fault := some ⟨cause, s.pc, op, addr⟩ }

/-- From `m` to `n`, cell `a` becomes `v` and every other cell reads as before. -/
abbrev Memory.onlyAt (m n : Memory) (a : Nat) (v : Byte) : Prop :=
  n.read a = v ∧ ∀ b, b ≠ a → n.read b = m.read b

/-- The pops an instruction must find values for: a shorter operand stack raises STACK_UNDERFLOW
(40_cycle.md R89). The optional pops of `puts` and `sys` do not count (44_system.md R139, R143). -/
def requiredPops : Instr → Nat
  | .add | .sub | .mul | .div | .and | .or | .xor | .addm _ | .subm _ | .mulm _ | .divm _ | .andm _
  | .orm _ | .xorm _ | .lsh | .rsh | .lshm _ | .rshm _ | .putp _ | .putpm _ | .puts _ => 2
  | .pop _ | .wait | .not | .notm _ => 1
  | .halt | .push _ | .pushm _ | .inc _ | .dec _ | .cmp _ _ | .cmpm _ _ | .jmp _ | .jeq _ | .jne _
  | .jgt _ | .jlt _ | .jge _ | .jle _ | .call _ | .ret | .sys _ | .nop | .illegal _ => 0

/-- The instructions that call the surface (60_exceptions.md R152). -/
def callsSurface : Instr → Bool
  | .putp _ | .putpm _ | .puts _ | .sys _ => true
  | .halt | .push _ | .pushm _ | .pop _ | .wait | .add | .sub | .mul | .div | .and | .or | .xor
  | .addm _ | .subm _ | .mulm _ | .divm _ | .andm _ | .orm _ | .xorm _ | .lsh | .rsh | .lshm _
  | .rshm _ | .not | .notm _ | .inc _ | .dec _ | .cmp _ _ | .cmpm _ _ | .jmp _ | .jeq _ | .jne _
  | .jgt _ | .jlt _ | .jge _ | .jle _ | .call _ | .ret | .nop | .illegal _ => false

/-- The data offset an instruction stores to, if it stores to the data region (20_memory.md R42). -/
def storesTo : Instr → Option Nat
  | .pop d | .addm d | .subm d | .mulm d | .divm d | .andm d | .orm d | .xorm d | .lshm d | .rshm d
  | .notm d | .inc d | .dec d => some (dataOffset d)
  | .halt | .push _ | .pushm _ | .wait | .add | .sub | .mul | .div | .and | .or | .xor | .lsh | .rsh
  | .not | .cmp _ _ | .cmpm _ _ | .jmp _ | .jeq _ | .jne _ | .jgt _ | .jlt _ | .jge _ | .jle _
  | .call _ | .ret | .putp _ | .putpm _ | .puts _ | .sys _ | .nop | .illegal _ => none

/-- After `let x` come the tokens `form`, which give `x` cells with the values `vs`, and then the tokens
`post`: the three forms of 30_encoding.md R72. -/
abbrev letForm (form : List Token) (vs : List Nat) (post : List Token) : Prop :=
  (form = [] ∧ vs = [0] ∧ post.head? ≠ some .comma) ∨
  (∃ v, form = [.comma, .num v] ∧ vs = [v]) ∨
  (vs ≠ [] ∧ form = .comma :: .lbrack :: (vs.map Token.num).intersperse .comma ++ [.rbrack])

end Sys2Proof.Machine
end

