-- ==== Sys2Proof/WellFormed.lean ====
section
/-! DEFINITION. Which terms of `Instr` an encoding of the spec stands for. -/

namespace Sys2Proof

/-- First byte that is no opcode (30_encoding.md R65: 0x2B to 0xFF encode no instruction). -/
abbrev firstIllegal : Nat := 0x2B

/-- "Every value of every operand field is a legal encoding" (30_encoding.md R62), so every term is
well-formed but `illegal op` for a byte `op` that IS an opcode (R65). -/
def Instr.wellFormed : Instr → Bool
  | .illegal op => decide (firstIllegal ≤ op.toNat)
  | .halt | .push _ | .pushm _ | .pop _ | .wait | .add | .sub | .mul | .div | .and | .or | .xor
  | .addm _ | .subm _ | .mulm _ | .divm _ | .andm _ | .orm _ | .xorm _ | .lsh | .rsh | .lshm _
  | .rshm _ | .not | .notm _ | .inc _ | .dec _ | .cmp _ _ | .cmpm _ _ | .jmp _ | .jeq _ | .jne _
  | .jgt _ | .jlt _ | .jge _ | .jle _ | .call _ | .ret | .putp _ | .putpm _ | .puts _ | .sys _
  | .nop => true

end Sys2Proof
end

