-- ==== Sys2Proof/Certificates/Slice0/Obligations.lean ====
section
/-! DEFINITION. The statements for the provers. Each docstring names the rules it rests on. -/

open Sys2Proof Sys2Proof.Config Sys2Proof.Machine

/-! ## Reset and layout -/

/-- 10_state.md R32, 70_reset_and_hazards.md R167: the power-on value of every piece of state. -/
def Obligations.PowerOnState : Prop :=
  let s := State.reset
  (∀ a, s.mem.read a = 0) ∧ s.pc = 0 ∧ s.ostack = [] ∧ s.cstack = [] ∧ s.flag = .equal ∧
    s.wait = 0 ∧ s.halted = false ∧ s.fault = none ∧ s.viewport = ⟨0, 0, 128, 128⟩ ∧
    s.dirty = false ∧ s.arena = 0 ∧ s.used = [] ∧ s.freel = []

/-- From power-on with nothing loaded the first tick runs the `halt` that cell 0 holds (95_test_vectors.md
section 2.11, vector R1). It is a tick of the standalone harness (log 5). -/
def Obligations.FirstTickFromPowerOnHalts : Prop :=
  step State.reset = .next { State.reset with pc := 1, halted := true }

/-- 20_memory.md R35: the four regions are disjoint and cover the array with no gap. -/
def Obligations.RegionsPartitionMemory : Prop :=
  (∀ a, (∃ r : Region, r.holds a) ↔ a < MEM_SIZE) ∧
  ∀ a (r r' : Region), r.holds a → r'.holds a → r = r'

/-! ## Encoding -/

/-- Words written out from the opcode map and the formats of 30_encoding.md R61, R63, R65. -/
def Obligations.KnownWordsDecode : Prop :=
  decode [0x00#8] = .ok (.halt, []) ∧
  decode [0x01#8, 0x07#8] = .ok (.push 7, []) ∧
  decode [0x03#8, 0xFE#8, 0x2A#8] = .ok (.pop 0xFE, [0x2A#8]) ∧
  decode [0x06#8] = .ok (.sub, []) ∧
  decode [0x16#8, 0x80#8] = .ok (.rshm 0x80, []) ∧
  decode [0x1B#8, 0x00#8, 0x05#8] = .ok (.cmp 0 5, []) ∧
  decode [0x1C#8, 0x01#8, 0x02#8] = .ok (.cmpm 1 2, []) ∧
  decode [0x23#8, 0x10#8] = .ok (.jle 0x10, []) ∧
  decode [0x28#8, 0x40#8] = .ok (.puts 0x40, []) ∧
  decode [0x29#8, 0xF0#8] = .ok (.sys 0xF0, []) ∧
  decode [0x2B#8] = .ok (.illegal 0x2B, []) ∧
  decode [0x1C#8, 0x01#8] = .error (.missingOperand 0x1C)

/-- 30_encoding.md R61, R63, R65: no bit of an encoding is dropped, whatever follows the instruction. -/
def Obligations.DecodeInvertsEncode : Prop :=
  ∀ (i : Instr) (rest : List Byte), i.wellFormed = true → decode (encode i ++ rest) = .ok (i, rest)

/-- 30_encoding.md R61, R63, R65: what is decoded is well-formed, and its words are the bytes read. -/
def Obligations.EncodeInvertsDecode : Prop :=
  ∀ (bs rest : List Byte) (i : Instr),
    decode bs = .ok (i, rest) → encode i ++ rest = bs ∧ i.wellFormed = true

/-- 30_encoding.md R64: the length of an instruction is told by its opcode byte alone, and is the length of
its format in the opcode map. -/
def Obligations.LengthFromOpcodeByte : Prop :=
  (∀ (op : Byte) (bs rest : List Byte) (i : Instr),
    decode (op :: bs) = .ok (i, rest) →
      i.length = (decodeOpcode op).length ∧ (op :: bs).length = i.length + rest.length) ∧
  ∀ row ∈ opcodeTable,
    (decodeOpcode row.opcode).length =
      match row.format with
      | .F0 => 1
      | .FI | .FD | .FT | .FS => 2
      | .FDI | .FDD => 3

/-! ## The tick -/

/-- 40_cycle.md R82: the three stages of a tick. The third: when the cells at `pc`, all of them in the
program region, decode to an instruction, the tick is that instruction's execution and nothing else. -/
def Obligations.StepRunsDecodedInstruction : Prop :=
  ∀ s : State,
    (s.halted = true → step s = .next s) ∧
    (s.halted = false → 0 < s.wait → step s = .next { s with wait := s.wait - 1 }) ∧
    (s.halted = false → s.wait = 0 → ∀ (n : Nat) (i : Instr),
      s.pc + n ≤ PROG_BASE + PROG_SIZE → decode (s.mem.copy s.pc n) = .ok (i, []) →
        step s = exec i s)

/-- 40_cycle.md R84, 60_exceptions.md R145, R146: a fetch that leaves the program region raises BOUNDARY,
the opcode fetch without an opcode in the record, an operand fetch with it. -/
def Obligations.FetchOutsideProgramFaults : Prop :=
  ∀ s : State, s.halted = false → s.wait = 0 →
    (PROG_BASE + PROG_SIZE ≤ s.pc → step s = .next (s.faulted .boundary none (some s.pc))) ∧
    (s.pc < PROG_BASE + PROG_SIZE →
      PROG_BASE + PROG_SIZE < s.pc + (decodeOpcode (s.mem.read s.pc)).length →
        step s =
          .next (s.faulted .boundary (some (s.mem.read s.pc)) (some (PROG_BASE + PROG_SIZE))))

/-- 30_encoding.md R65: fetching a byte from 0x2B to 0xFF as an opcode raises ILLEGAL_OPCODE, and the
record's opcode field holds the byte. -/
def Obligations.IllegalOpcodeByteFaults : Prop :=
  ∀ s : State, s.halted = false → s.wait = 0 → s.pc < PROG_BASE + PROG_SIZE →
    0x2B ≤ (s.mem.read s.pc).toNat →
      step s = .next (s.faulted .illegalOpcode (some (s.mem.read s.pc)) none)

/-- 60_exceptions.md R145: a tick that writes a fault record undoes all else, sets `halted`, leaves `pc` at
the opcode, and records the opcode cell unless its own fetch failed. -/
def Obligations.FaultIsPrecise : Prop :=
  ∀ s t : State, step s = .next t → t.fault ≠ s.fault →
    ∃ (cause : FaultCause) (addr : Option Nat),
      t = s.faulted cause
        (if s.pc < PROG_BASE + PROG_SIZE then some (s.mem.read s.pc) else none) addr

/-- 40_cycle.md R82 with 60_exceptions.md R147: no number of ticks changes a halted engine, faulted or not. -/
def Obligations.HaltedEngineNeverChanges : Prop :=
  ∀ (n : Nat) (s : State), s.halted = true → Sys2Proof.core.run n s = .next s

/-- The machine never stops outside its own fault state: every tick answers a next state
(60_exceptions.md R145: a fault is a state). -/
def Obligations.EveryTickAnswers : Prop := ∀ s : State, ∃ t, step s = .next t

/-! ## Stack transfer -/

/-- 41_stack.md R93, R94. -/
def Obligations.PushPutsOperandOnTop : Prop :=
  ∀ (s : State) (b : Byte),
    (s.ostack.length < STACK_CAP →
      exec (.push b) s = .next { s with pc := s.pc + 2, ostack := .lit b :: s.ostack } ∧
      exec (.pushm b) s = .next { s with pc := s.pc + 2, ostack := .mem b :: s.ostack }) ∧
    (s.ostack.length = STACK_CAP →
      exec (.push b) s = .next (s.faulted .stackOverflow (some 0x01) none) ∧
      exec (.pushm b) s = .next (s.faulted .stackOverflow (some 0x02) none))

/-- 41_stack.md R95. -/
def Obligations.PopStoresUnpackedValue : Prop :=
  ∀ (s : State) (d : Byte) (v : Value) (rest : List Value),
    s.mem.wf → s.ostack = v :: rest →
      ∃ t, exec (.pop d) s = .next t ∧
        t = { s with pc := s.pc + 2, ostack := rest, mem := t.mem } ∧
        s.mem.onlyAt t.mem (dataAddr (dataOffset d)) (v.numberIn s.mem)

/-- 40_cycle.md R89, 60_exceptions.md R144 (row 5): an instruction that finds fewer values than it pops
raises STACK_UNDERFLOW and pops nothing. -/
def Obligations.ShortStackUnderflows : Prop :=
  ∀ (i : Instr) (s : State), s.ostack.length < requiredPops i →
    exec i s = .next (s.faulted .stackUnderflow (some i.opcode) none)

/-! ## Arithmetic and logic -/

/-- 42_alu.md R97-R100, R102-R104 with R96: `a` was pushed first, `b` last; the result is a literal. -/
def Obligations.StackBinaryOpsPushResult : Prop :=
  ∀ (s : State) (a b : Value) (rest : List Value),
    s.ostack = b :: a :: rest → s.ostack.length ≤ STACK_CAP →
      let x := (a.numberIn s.mem).toNat
      let y := (b.numberIn s.mem).toNat
      let result (r : Nat) : State :=
        { s with pc := s.pc + 1, ostack := .lit (BitVec.ofNat 8 r) :: rest }
      exec .add s = .next (result ((x + y) % 256)) ∧
      exec .sub s = .next (result (((x : Int) - y) % 256).toNat) ∧
      exec .mul s = .next (result ((x * y) % 256)) ∧
      exec .and s = .next (result (x &&& y)) ∧
      exec .or s = .next (result (x ||| y)) ∧
      exec .xor s = .next (result (x ^^^ y))

/-- 42_alu.md R101: the quotient, or DIV_ZERO with nothing popped. -/
def Obligations.DivPushesQuotientOrFaults : Prop :=
  ∀ (s : State) (a b : Value) (rest : List Value),
    s.ostack = b :: a :: rest → s.ostack.length ≤ STACK_CAP →
      let x := (a.numberIn s.mem).toNat
      let y := (b.numberIn s.mem).toNat
      (y ≠ 0 → exec .div s =
        .next { s with pc := s.pc + 1, ostack := .lit (BitVec.ofNat 8 (x / y)) :: rest }) ∧
      (y = 0 → exec .div s = .next (s.faulted .divZero (some 0x08) none))

/-- 42_alu.md R105-R108, R110-R112 with R96: the result goes to one data cell; the stack loses two. -/
def Obligations.MemoryBinaryOpsStoreResult : Prop :=
  ∀ (s : State) (d : Byte) (a b : Value) (rest : List Value),
    s.mem.wf → s.ostack = b :: a :: rest →
      let x := (a.numberIn s.mem).toNat
      let y := (b.numberIn s.mem).toNat
      let stores (i : Instr) (r : Nat) : Prop :=
        ∃ t, exec i s = .next t ∧ t = { s with pc := s.pc + 2, ostack := rest, mem := t.mem } ∧
          s.mem.onlyAt t.mem (dataAddr (dataOffset d)) (BitVec.ofNat 8 r)
      stores (.addm d) ((x + y) % 256) ∧
      stores (.subm d) (((x : Int) - y) % 256).toNat ∧
      stores (.mulm d) ((x * y) % 256) ∧
      stores (.andm d) (x &&& y) ∧
      stores (.orm d) (x ||| y) ∧
      stores (.xorm d) (x ^^^ y)

/-- 42_alu.md R109. -/
def Obligations.DivmStoresQuotientOrFaults : Prop :=
  ∀ (s : State) (d : Byte) (a b : Value) (rest : List Value),
    s.mem.wf → s.ostack = b :: a :: rest →
      let x := (a.numberIn s.mem).toNat
      let y := (b.numberIn s.mem).toNat
      (y ≠ 0 →
        ∃ t, exec (.divm d) s = .next t ∧
          t = { s with pc := s.pc + 2, ostack := rest, mem := t.mem } ∧
          s.mem.onlyAt t.mem (dataAddr (dataOffset d)) (BitVec.ofNat 8 (x / y))) ∧
      (y = 0 → exec (.divm d) s = .next (s.faulted .divZero (some 0x0F) none))

/-- 42_alu.md R115, R116, R113 with R96: the amount is unpacked, the value is not; the tag is kept; shifts
by 8 or more give 0. -/
def Obligations.ShiftsKeepTheTag : Prop :=
  ∀ (s : State) (a b : Value) (rest : List Value),
    s.ostack = b :: a :: rest → s.ostack.length ≤ STACK_CAP →
      let k := (b.numberIn s.mem).toNat
      let result (r : Nat) : State :=
        { s with pc := s.pc + 1, ostack := a.retag (BitVec.ofNat 8 r) :: rest }
      exec .lsh s = .next (result ((a.payload.toNat * 2 ^ k) % 256)) ∧
      exec .rsh s = .next (result (a.payload.toNat / 2 ^ k)) ∧
      (8 ≤ k → exec .lsh s = .next (result 0) ∧ exec .rsh s = .next (result 0))

/-- 42_alu.md R117, R118, R114: the shifted value is unpacked and stored. -/
def Obligations.MemoryShiftsStoreUnpacked : Prop :=
  ∀ (s : State) (d : Byte) (a b : Value) (rest : List Value),
    s.mem.wf → s.ostack = b :: a :: rest →
      let k := (b.numberIn s.mem).toNat
      let stores (i : Instr) (v : Value) : Prop :=
        ∃ t, exec i s = .next t ∧ t = { s with pc := s.pc + 2, ostack := rest, mem := t.mem } ∧
          s.mem.onlyAt t.mem (dataAddr (dataOffset d)) (v.numberIn s.mem)
      stores (.lshm d) (a.retag (BitVec.ofNat 8 ((a.payload.toNat * 2 ^ k) % 256))) ∧
      stores (.rshm d) (a.retag (BitVec.ofNat 8 (a.payload.toNat / 2 ^ k)))

/-- 42_alu.md R119, R120: the complement of the raw payload under its tag, pushed or unpacked and stored. -/
def Obligations.ComplementKeepsTheTag : Prop :=
  ∀ (s : State) (d : Byte) (a : Value) (rest : List Value),
    s.mem.wf → s.ostack = a :: rest → s.ostack.length ≤ STACK_CAP →
      let v := a.retag (BitVec.ofNat 8 (255 - a.payload.toNat))
      exec .not s = .next { s with pc := s.pc + 1, ostack := v :: rest } ∧
      ∃ t, exec (.notm d) s = .next t ∧
        t = { s with pc := s.pc + 2, ostack := rest, mem := t.mem } ∧
        s.mem.onlyAt t.mem (dataAddr (dataOffset d)) (v.numberIn s.mem)

/-- 42_alu.md R114: a memory-destination shift or complement has the same effect on the data region and the
stack as the stack form followed by `pop`. -/
def Obligations.MemoryShiftIsShiftThenPop : Prop :=
  ∀ (s : State) (d : Byte), s.ostack.length ≤ STACK_CAP →
    ∀ p ∈ [(Instr.lshm d, Instr.lsh, 2), (.rshm d, .rsh, 2), (.notm d, .not, 1)],
      p.2.2 ≤ s.ostack.length →
        ∃ t u v, exec p.1 s = .next t ∧ exec p.2.1 s = .next u ∧ exec (.pop d) u = .next v ∧
          t.mem = v.mem ∧ t.ostack = v.ostack

/-- 42_alu.md R121, R122. -/
def Obligations.IncDecUpdateOneCell : Prop :=
  ∀ (s : State) (d : Byte), s.mem.wf →
    let v := (s.mem.read (dataAddr (dataOffset d))).toNat
    let stores (i : Instr) (r : Nat) : Prop :=
      ∃ t, exec i s = .next t ∧ t = { s with pc := s.pc + 2, mem := t.mem } ∧
        s.mem.onlyAt t.mem (dataAddr (dataOffset d)) (BitVec.ofNat 8 r)
    stores (.inc d) ((v + 1) % 256) ∧ stores (.dec d) (((v : Int) - 1) % 256).toNat

/-! ## Compare and control transfer -/

/-- 43_control.md R123, R124, R125: unsigned, the first operand on the left; only `pc` and `flag` change. -/
def Obligations.CompareSetsFlag : Prop :=
  ∀ (s : State) (d1 d2 imm : Byte),
    let x := (s.mem.read (dataAddr (dataOffset d1))).toNat
    let y := (s.mem.read (dataAddr (dataOffset d2))).toNat
    let compare (y : Nat) : Flag := if x = y then .equal else if x > y then .greater else .less
    exec (.cmp d1 imm) s = .next { s with pc := s.pc + 3, flag := compare imm.toNat } ∧
    exec (.cmpm d1 d2) s = .next { s with pc := s.pc + 3, flag := compare y }

/-- 43_control.md R126-R133: only `pc` changes, to the target if the condition holds, else past the jump. -/
def Obligations.JumpsTestTheFlag : Prop :=
  ∀ (s : State) (t : Byte),
    let goes (c : Prop) [Decidable c] : State := { s with pc := if c then t.toNat else s.pc + 2 }
    exec (.jmp t) s = .next (goes True) ∧
    exec (.jeq t) s = .next (goes (s.flag = .equal)) ∧
    exec (.jne t) s = .next (goes (s.flag = .greater ∨ s.flag = .less)) ∧
    exec (.jgt t) s = .next (goes (s.flag = .greater)) ∧
    exec (.jlt t) s = .next (goes (s.flag = .less)) ∧
    exec (.jge t) s = .next (goes (s.flag = .greater ∨ s.flag = .equal)) ∧
    exec (.jle t) s = .next (goes (s.flag = .less ∨ s.flag = .equal))

/-- 43_control.md R134: the return address is the `pc` after the operand. -/
def Obligations.CallPushesReturnAddress : Prop :=
  ∀ (s : State) (t : Byte),
    (s.cstack.length < CALL_CAP →
      exec (.call t) s = .next { s with pc := t.toNat, cstack := (s.pc + 2) :: s.cstack }) ∧
    (s.cstack.length = CALL_CAP → exec (.call t) s = .next (s.faulted .callOverflow (some 0x24) none))

/-- 43_control.md R135. -/
def Obligations.RetPopsIntoPc : Prop :=
  ∀ s : State,
    (∀ (r : Nat) (rest : List Nat), s.cstack = r :: rest →
      exec .ret s = .next { s with pc := r, cstack := rest }) ∧
    (s.cstack = [] → exec .ret s = .next (s.faulted .callUnderflow (some 0x25) none))

/-- 43_control.md R134, R135: a `ret` at any later state whose call stack is the one the `call` left goes on
after the call, at any address, and restores the call stack. -/
def Obligations.RetUndoesCall : Prop :=
  ∀ (s u v : State) (t : Byte),
    exec (.call t) s = .next u → s.cstack.length < CALL_CAP → v.cstack = u.cstack →
        ∃ w, exec .ret v = .next w ∧ w.pc = s.pc + 2 ∧ w.cstack = s.cstack

/-! ## System and timing -/

/-- 44_system.md R136, R138. -/
def Obligations.HaltAndNop : Prop :=
  ∀ s : State,
    exec .halt s = .next { s with pc := s.pc + 1, halted := true } ∧
    exec .nop s = .next { s with pc := s.pc + 1 }

/-- 44_system.md R137: the counter becomes N * WAIT_SCALE, and that many ticks then only count it down. -/
def Obligations.WaitSpendsItsTicks : Prop :=
  ∀ (s : State) (v : Value) (rest : List Value),
    s.ostack = v :: rest →
      let n := (v.numberIn s.mem).toNat * waitScale
      exec .wait s = .next { s with pc := s.pc + 1, ostack := rest, wait := n } ∧
      (s.halted = false → ∀ k, k ≤ n →
        Sys2Proof.core.run k { s with pc := s.pc + 1, ostack := rest, wait := n } =
          .next { s with pc := s.pc + 1, ostack := rest, wait := n - k })

/-- 44_system.md R139, 60_exceptions.md R155: ClearScreen fills the whole video region and nothing else; any
other code faults before the stack is touched. -/
def Obligations.SysClearsScreenOrFaults : Prop :=
  ∀ (s : State) (code : Byte), s.mem.wf →
    let clears (c : Byte) (rest : List Value) : Prop :=
      ∃ t, exec (.sys code) s = .next t ∧
        t = { s with pc := s.pc + 2, ostack := rest, mem := t.mem, dirty := true } ∧
        ∀ a, t.mem.read a =
          if VIDEO_BASE ≤ a ∧ a < VIDEO_BASE + VIDEO_SIZE then c else s.mem.read a
    (code = 0xF0 → s.ostack = [] → clears 0 []) ∧
    (code = 0xF0 → ∀ (v : Value) (rest : List Value), s.ostack = v :: rest →
      clears (v.numberIn s.mem) rest) ∧
    (code ≠ 0xF0 → exec (.sys code) s = .next (s.faulted .illegalSyscall (some 0x29) none))

/-- The table's row "(illegal)" executes as the fault of 30_encoding.md R65. -/
def Obligations.IllegalTakesTheFault : Prop :=
  ∀ (s : State) (op : Byte),
    exec (.illegal op) s = .next (s.faulted .illegalOpcode (some op) none)

/-! ## Draw -/

/-- 44_system.md R140-R142, 60_exceptions.md R153, R154, R156: X on top, Y under it; one pixel if it is
inside the viewport and the screen, none otherwise; `dirty` either way. -/
def Obligations.PutDrawsOneClippedPixel : Prop :=
  ∀ (s : State) (b : Byte) (vx vy : Value) (rest : List Value),
    s.mem.wf → s.ostack = vx :: vy :: rest →
      let x := (vx.numberIn s.mem).toNat
      let y := (vy.numberIn s.mem).toNat
      let w := s.viewport
      let draws (i : Instr) (c : Byte) : Prop :=
        ∃ t, exec i s = .next t ∧
          t = { s with pc := s.pc + 2, ostack := rest, mem := t.mem, dirty := true } ∧
          if w.vx ≤ x ∧ x < w.vx + w.vw ∧ w.vy ≤ y ∧ y < w.vy + w.vh ∧ x < 128 ∧ y < 128
          then s.mem.onlyAt t.mem (VIDEO_BASE + x + y * 128) c
          else t.mem = s.mem
      draws (.putp b) b ∧ draws (.putpm b) (s.mem.read (dataAddr (dataOffset b)))

/-- 44_system.md R143, 60_exceptions.md R157: the block's source is checked first; then every pixel of the
8 x 8 block that is inside the clip takes its source cell, row by row, and every other cell reads as
before. `f` is the frame: the value under X and Y, 0 if there is none. -/
def Obligations.PutsDrawsClippedBlock : Prop :=
  ∀ (s : State) (d f : Byte) (vx vy : Value) (rest rest' : List Value),
    s.mem.wf → s.ostack = vx :: vy :: rest →
      (rest = [] ∧ rest' = [] ∧ f = 0) ∨ (∃ v, rest = v :: rest' ∧ f = v.numberIn s.mem) →
        let x := (vx.numberIn s.mem).toNat
        let y := (vy.numberIn s.mem).toNat
        let w := s.viewport
        let base := d.toNat + 64 * f.toNat
        (base + 63 < DATA_SIZE →
          ∃ t, exec (.puts d) s = .next t ∧
            t = { s with pc := s.pc + 2, ostack := rest', mem := t.mem, dirty := true } ∧
            (∀ px py, px < 128 → py < 128 →
              t.mem.read (VIDEO_BASE + px + py * 128) =
                if (x ≤ px ∧ px < x + 8 ∧ y ≤ py ∧ py < y + 8) ∧
                    w.vx ≤ px ∧ px < w.vx + w.vw ∧ w.vy ≤ py ∧ py < w.vy + w.vh
                then s.mem.read (DATA_BASE + base + 8 * (py - y) + (px - x))
                else s.mem.read (VIDEO_BASE + px + py * 128)) ∧
            ∀ a, a < VIDEO_BASE ∨ VIDEO_BASE + VIDEO_SIZE ≤ a → t.mem.read a = s.mem.read a) ∧
        (DATA_SIZE ≤ base + 63 →
          exec (.puts d) s =
            .next (s.faulted .boundary (some 0x28) (some (DATA_BASE + max base DATA_SIZE))))

/-- 60_exceptions.md R155: "calling the peripheral clear(color) twice in a row yields a buffer identical to
calling it once". -/
def Obligations.ClearTwiceIsClearOnce : Prop :=
  ∀ (s : State) (c : Byte), surfClear c (surfClear c s) = surfClear c s

/-! ## Whole-machine rules -/

/-- 20_memory.md R50, R41: no tick writes a cell of the program or the config region. -/
def Obligations.ProgramAndConfigNeverWritten : Prop :=
  ∀ (s t : State) (a : Nat), step s = .next t →
    a < PROG_BASE + PROG_SIZE ∨ CONFIG_BASE ≤ a → t.mem.read a = s.mem.read a

/-- 20_memory.md R42: an instruction changes a data cell only if it stores to that offset, and a video cell
only if it calls the surface. -/
def Obligations.OnlyStoringInstructionsWriteMemory : Prop :=
  ∀ (i : Instr) (s t : State) (a : Nat), exec i s = .next t → t.mem.read a ≠ s.mem.read a →
    (∃ off, storesTo i = some off ∧ a = dataAddr off) ∨
      (callsSurface i = true ∧ VIDEO_BASE ≤ a ∧ a < VIDEO_BASE + VIDEO_SIZE)

/-- 10_state.md R22-R24, R27, R28, R30: which instructions write which control field. -/
def Obligations.ControlFieldsHaveTheirWriters : Prop :=
  ∀ (i : Instr) (s t : State), exec i s = .next t →
    (t.flag ≠ s.flag → ∃ d b, i = .cmp d b ∨ i = .cmpm d b) ∧
    (t.wait ≠ s.wait → i = .wait) ∧
    (t.cstack ≠ s.cstack → i = .ret ∨ ∃ b, i = .call b) ∧
    (t.halted ≠ s.halted → t.halted = true ∧ (i = .halt ∨ t.fault.isSome = true)) ∧
    (t.dirty ≠ s.dirty → t.dirty = true ∧ callsSurface i = true) ∧
    t.viewport = s.viewport ∧ t.arena = s.arena ∧ t.used = s.used ∧ t.freel = s.freel

/-- 60_exceptions.md R154: every call of the surface marks it dirty, even one that clips every pixel; an
instruction that calls it either does so or ends in a fault. -/
def Obligations.SurfaceCallsSetDirty : Prop :=
  ∀ (i : Instr) (s t : State), exec i s = .next t → callsSurface i = true →
    t.dirty = true ∨ ∃ cause addr, t = s.faulted cause (some i.opcode) addr

/-! ## Invariants -/

/-- The invariant of Safety.lean holds at power-on (10_state.md R32). -/
def Obligations.PowerOnMeetsInvariant : Prop := State.reset.Inv

/-- Every tick keeps the invariant: the stacks stay within their capacities, `pc` and the return addresses
within the program region's end, the wait counter within 255 * WAIT_SCALE, memory canonical, the fault
record that of a precise fault (10_state.md R18, R21, R22, R26). -/
def Obligations.StepKeepsInvariant : Prop :=
  ∀ s t : State, s.Inv → step s = .next t → t.Inv

/-- Every host action, a tick among them, keeps the invariant, the allocator's part included
(60_exceptions.md R161, 20_memory.md R57). -/
def Obligations.HostActionsKeepInvariant : Prop :=
  ∀ (h : Harness) (a : HostAction) (c : Console), c.core.Inv → (c.after h a).core.Inv

/-! ## The host -/

/-- 70_reset_and_hazards.md R168. -/
def Obligations.EngineResetKeepsMemoryAndSurface : Prop :=
  ∀ (h : Harness) (c : Console),
    c.act h .reset = .ok (.done,
      { c with core :=
        { pc := PROG_BASE, ostack := [], cstack := [], flag := .equal, wait := 0, halted := false,
          fault := none, mem := c.core.mem, viewport := c.core.viewport, dirty := c.core.dirty,
          arena := c.core.arena, used := c.core.used, freel := c.core.freel } })

/-- 60_exceptions.md R162: under the integrated harness a tick is issued only when the engine is not halted
and the surface not dirty; under the standalone one whenever it is not halted. -/
def Obligations.HarnessGatesTicks : Prop :=
  ∀ (h : Harness) (c : Console),
    let issued := c.core.halted = false ∧ (h = .integrated → c.core.dirty = false)
    (issued → ∃ c', c.act h .tick = .ok (.done, c') ∧ step c.core = .next c'.core) ∧
    (¬issued → c.after h .tick = c)

/-- 10_state.md R27, 70_reset_and_hazards.md R174: once dirty, the surface stays dirty until the host
presents; so the integrated harness issues no tick before that. -/
def Obligations.OnlyPresentClearsDirty : Prop :=
  ∀ (h : Harness) (a : HostAction) (c : Console),
    c.core.dirty = true → a ≠ .present →
      (c.after h a).core.dirty = true ∧ (c.after .integrated .tick) = c

/-- 60_exceptions.md R158, R159, R161, R163, R165; 20_memory.md R52: what present, the viewport calls, quit and
the snapshot change, and what present, the snapshot and the two status reads hand over. That a quit of a faulted
engine keeps its fault record is the model's own inference (log 10). -/
def Obligations.HostPortsChangeOneField : Prop :=
  ∀ (h : Harness) (c : Console) (x y w z : Nat),
    (∃ px, c.act h .present = .ok (.frame px, { c with core := { c.core with dirty := false } }) ∧
      px.length = VIDEO_SIZE ∧ ∀ k, k < VIDEO_SIZE → px[k]? = some (c.core.mem.read (VIDEO_BASE + k))) ∧
    (∃ all, c.act h .snapshot = .ok (.cells all, c) ∧
      all.length = MEM_SIZE ∧ ∀ k, k < MEM_SIZE → all[k]? = some (c.core.mem.read k)) ∧
    c.act h (.viewport x y w z) =
      .ok (.done, { c with core := { c.core with viewport := ⟨x, y, w, z⟩ } }) ∧
    c.act h .viewportReset =
      .ok (.done, { c with core := { c.core with viewport := ⟨0, 0, 128, 128⟩ } }) ∧
    c.act h .quit = .ok (.done, { c with core := { c.core with halted := true } }) ∧
    c.act h .readFault = .ok (.faultIs c.core.fault, c) ∧
    c.act h .readHalted = .ok (.haltedIs c.core.halted, c)

/-- 70_reset_and_hazards.md R169: what a load that is allowed writes, cell by cell, and that it performs the
engine reset and prepares the allocator. The data image names no offset twice. What `fits` asks of a data
offset is the model's choice (log 4). -/
def Obligations.LoadWritesTheImage : Prop :=
  ∀ (h : Harness) (c : Console) (im : Image),
    c.core.mem.wf → c.quiet = true → im.fits = true → (im.data.map Prod.fst).Nodup →
      ∃ t, c.act h (.load im) = .ok (.done, { c with core := t }) ∧
        t = { engineReset c.core with mem := t.mem, arena := im.nlet, used := [], freel := [] } ∧
        (∀ k v, im.prog[k]? = some v → t.mem.read (PROG_BASE + k) = v) ∧
        (∀ off v, (off, v) ∈ im.data → t.mem.read (DATA_BASE + off) = v) ∧
        ∀ a, (∀ k, k < im.prog.length → a ≠ PROG_BASE + k) →
          (∀ p ∈ im.data, a ≠ DATA_BASE + p.1) → t.mem.read a = c.core.mem.read a

/-- 70_reset_and_hazards.md R169, 20_memory.md R53, 60_exceptions.md R161: between the first tick and the next
halt the host loads nothing, writes no cell and calls no allocator; a load that breaks a bound is refused.
Where `ticked` is held is the model's choice (log 2). -/
def Obligations.HostRefusedWhileRunning : Prop :=
  ∀ (h : Harness) (c : Console) (im : Image) (a : Nat) (v : Byte),
    (c.core.halted = false → c.ticked = true →
      c.after h (.load im) = c ∧ c.after h (.rawWrite a v) = c ∧ c.after h (.alloc a) = c ∧
        c.after h (.free a) = c) ∧
    (PROG_SIZE < im.prog.length ∨ DATA_SIZE < im.nlet → c.after h (.load im) = c)

/-- 20_memory.md R37, R53: the raw port inside and outside the array. A read is answered whenever the host
asks, a running engine's too; a write is for an engine that is halted or has not ticked. That the host gets an
error and the engine does not halt is the model's choice (log 3); so are that the raw
port reaches program and video cells (log 11) and where `ticked` is held (log 2). -/
def Obligations.RawPortChecksTheArray : Prop :=
  ∀ (h : Harness) (c : Console) (a : Nat) (v : Byte),
    (a < MEM_SIZE → c.act h (.rawRead a) = .ok (.cell (c.core.mem.read a), c)) ∧
    (MEM_SIZE ≤ a → c.act h (.rawRead a) = .error (.outside ⟨.boundary, some a⟩)) ∧
    (c.quiet = true →
      (c.core.mem.wf → a < MEM_SIZE →
        ∃ t, c.act h (.rawWrite a v) = .ok (.done, { c with core := t }) ∧
          t = { c.core with mem := t.mem } ∧ c.core.mem.onlyAt t.mem a v) ∧
      (MEM_SIZE ≤ a → c.act h (.rawWrite a v) = .error (.outside ⟨.boundary, some a⟩)))

/-! ## The allocator -/

/-- 20_memory.md R55: the first free block that fits, whole, else the arena grows; errors change nothing. -/
def Obligations.AllocIsFirstFit : Prop :=
  ∀ (size : Nat) (s : State),
    (size = 0 → alloc size s = .error .allocZero) ∧
    (∀ (pre post : List Block) (b : Block), 0 < size →
      s.freel = pre ++ b :: post → (∀ x ∈ pre, x.cap < size) → size ≤ b.cap →
        alloc size s = .ok (b.off, { s with freel := pre ++ post, used := s.used ++ [b] })) ∧
    (0 < size → (∀ x ∈ s.freel, x.cap < size) →
      (s.arena + size ≤ DATA_SIZE → alloc size s =
        .ok (s.arena, { s with arena := s.arena + size, used := s.used ++ [⟨s.arena, size⟩] })) ∧
      (DATA_SIZE < s.arena + size → alloc size s = .error .allocExhausted))

/-- 20_memory.md R56: a block in use moves to the tail of the free list, unmerged. -/
def Obligations.FreeAppendsToFreeList : Prop :=
  ∀ (off : Nat) (s : State),
    (∀ (pre post : List Block) (b : Block),
      s.used = pre ++ b :: post → (∀ x ∈ pre, x.off ≠ off) → b.off = off →
        free off s = .ok { s with used := pre ++ post, freel := s.freel ++ [b] }) ∧
    ((∀ x ∈ s.used, x.off ≠ off) → free off s = .error .freeUnknown)

/-- 20_memory.md R57: an address in use is never handed out again, the arena never decreases, and the blocks
stay pairwise disjoint inside `[0, arena)`. -/
def Obligations.AllocatorNeverHandsOutTwice : Prop :=
  (∀ (size off : Nat) (s t : State), s.allocInv → alloc size s = .ok (off, t) →
    t.allocInv ∧ s.arena ≤ t.arena ∧ (∀ b ∈ s.used, b.off ≠ off) ∧
      ∃ b ∈ t.used, b.off = off ∧ size ≤ b.cap) ∧
  ∀ (off : Nat) (s t : State), s.allocInv → free off s = .ok t → t.allocInv ∧ t.arena = s.arena

/-- 20_memory.md R57, the source's example: allocate, free, allocate again gives the same address where no
free block fitted before, and the arena does not grow at the second call. -/
def Obligations.FreedBlockIsReused : Prop :=
  ∀ (size off : Nat) (s t u : State),
    s.allocInv → (∀ x ∈ s.freel, x.cap < size) → alloc size s = .ok (off, t) → free off t = .ok u →
      ∃ v, alloc size u = .ok (off, v) ∧ v.arena = t.arena

/-! ## The assembler -/

/-- 30_encoding.md R80: the example of each format, and the bytes it assembles to; and five texts with an atom
of a kind other than the usual one. -/
def Obligations.CanonicalSpellingsAssemble : Prop :=
  let prog (src : String) : Option (List Byte) :=
    match assemble src.toList with
    | .ok im => some im.prog
    | .error _ => none
  prog "add" = some [0x05] ∧
  prog "push 7" = some [0x01, 0x07] ∧
  prog "let x pop &x" = some [0x03, 0x00] ∧
  prog "loop: jmp loop" = some [0x1D, 0x00] ∧
  prog "sys 0xF0" = some [0x29, 0xF0] ∧
  prog "let i cmp &i, 5" = some [0x1B, 0x00, 0x05] ∧
  prog "let a let b cmpm &a, &b" = some [0x1C, 0x00, 0x01] ∧
  prog "let a let b push &b" = some [0x01, 0x01] ∧
  prog "let a let b pushm &b" = some [0x02, 0x01] ∧
  prog "nop loop: push loop" = some [0x2A, 0x01, 0x01] ∧
  prog "let a let b jmp &b" = some [0x1D, 0x01] ∧
  prog "pop 7" = some [0x03, 0x07]

/-- 30_encoding.md R74, R75: a label denotes the byte offset, in the encoded stream, of the token after it,
whatever refers to it and from where. Only the four kinds of token that R74 names advance the position and
are encoded, each as one byte; a label declared twice is an error. -/
def Obligations.LabelsNameTheNextToken : Prop :=
  let advances (t : Token) : Bool :=
    match t with
    | .opcode _ | .ident _ | .ref _ | .num _ => true
    | _ => false
  (∀ (ts rest : List Token) (labels : Names), pass2 [] 0 ts = .ok (labels, rest) →
    rest = ts.filter advances ∧
    ∀ (pre post : List Token) (x : Lexeme), ts = pre ++ .labelDecl x :: post →
      labels.lookup x = some (pre.filter advances).length) ∧
  (∀ (pre mid post : List Token) (x : Lexeme),
    ∃ y, pass2 [] 0 (pre ++ .labelDecl x :: mid ++ .labelDecl x :: post) = .error (.duplicateLabel y)) ∧
  ∀ (src : List Char) (im : Image), assemble src = .ok im →
    ∃ (p : Pass1) (labels : Names) (rest : List Token),
      pass1 .outside ⟨[], [], []⟩ (tokenize .idle src) = .ok p ∧
      pass2 [] 0 p.rest = .ok (labels, rest) ∧
      im.prog.length = rest.length ∧
      (∀ (k : Nat) (tok : Token), rest[k]? = some tok →
        ∃ b, encodeToken labels p.vars tok = .ok [b] ∧ im.prog[k]? = some b) ∧
      ∀ (pre post : List Token) (x : Lexeme), p.rest = pre ++ .labelDecl x :: post →
        let off := (pre.filter advances).length
        labels.lookup x = some off ∧
        (off ≤ 255 → encodeToken labels p.vars (.ident x) = .ok [BitVec.ofNat 8 off]) ∧
        (255 < off → encodeToken labels p.vars (.ident x) = .error (.tooLarge off)) ∧
        ∀ (tok : Token) (more : List Token), post.filter advances = tok :: more →
          ∃ b, encodeToken labels p.vars tok = .ok [b] ∧ im.prog[off]? = some b

/-- 30_encoding.md R77, R79: an image an assembly yields fits a load, and its data image gives one value to
each `let` cell, at the offsets 0, 1, 2, ... (R72). -/
def Obligations.AssembledImageFits : Prop :=
  ∀ (src : List Char) (im : Image), assemble src = .ok im →
    im.fits = true ∧ im.data.map Prod.fst = List.range im.nlet

/-- 30_encoding.md R72, R79, 70_reset_and_hazards.md R169: after assembling and loading, the cells of a
declared name, from its recorded offset on, read as the values its `let` form gives, and every pair of the
data image reads back. -/
def Obligations.LetCellsHoldTheirValues : Prop :=
  ∀ (src : List Char) (im : Image) (h : Harness) (c : Console),
    assemble src = .ok im → c.core.mem.wf → c.quiet = true →
      ∃ (t : State) (p : Pass1), c.act h (.load im) = .ok (.done, { c with core := t }) ∧ t.arena = im.nlet ∧
        (∀ off v, (off, v) ∈ im.data → t.mem.read (DATA_BASE + off) = v) ∧
        pass1 .outside ⟨[], [], []⟩ (tokenize .idle src) = .ok p ∧
        ∀ (pre form post : List Token) (x : Lexeme) (vs : List Nat),
          tokenize .idle src = pre ++ .letKw :: .ident x :: (form ++ post) → letForm form vs post →
            ∃ off, p.vars.lookup x = some off ∧ off + vs.length ≤ im.nlet ∧
              ∀ (k v : Nat), vs[k]? = some v →
                (t.mem.read (DATA_BASE + off + k)).toNat = v
end

