-- ==== Sys2Proof/Laws/Allocator.lean ====
section
/-! SUPPORT. All that the allocator's two calls can do when they answer (20_memory.md R55, R56), and that they
keep its invariant (R57). -/

namespace Sys2Proof.Machine

open Sys2Proof.Config

/-- A scan that finds `b` stops at the first block that fits. -/
theorem find?_split {α : Type} {p : α → Bool} {l : List α} {b : α} (h : l.find? p = some b) :
    ∃ pre post, l = pre ++ b :: post ∧ (∀ x ∈ pre, p x = false) ∧ p b = true ∧
      l.eraseP p = pre ++ post := by
  obtain ⟨hb, pre, post, rfl, hpre⟩ := List.find?_eq_some_iff_append.mp h
  have hpre' : ∀ x ∈ pre, p x = false := fun x hx => by simpa using hpre x hx
  refine ⟨pre, post, rfl, hpre', hb, ?_⟩
  rw [List.eraseP_append_right _ fun x hx => by simp [hpre' x hx], List.eraseP_cons_of_pos hb]

/-- A list whose first fitting block is `b`. -/
theorem find?_of_split {α : Type} {p : α → Bool} {pre post : List α} {b : α}
    (hpre : ∀ x ∈ pre, p x = false) (hb : p b = true) :
    (pre ++ b :: post).find? p = some b ∧ (pre ++ b :: post).eraseP p = pre ++ post := by
  constructor
  · rw [List.find?_append, List.find?_eq_none.mpr fun x hx => by simp [hpre x hx]]
    simp [hb]
  · rw [List.eraseP_append_right _ fun x hx => by simp [hpre x hx], List.eraseP_cons_of_pos hb]

/-- All `alloc` can do when it answers. -/
theorem alloc_cases {size off : Nat} {s t : State} (h : alloc size s = .ok (off, t)) :
    0 < size ∧
      ((∃ pre b post, s.freel = pre ++ b :: post ∧ (∀ x ∈ pre, x.cap < size) ∧ size ≤ b.cap ∧
          off = b.off ∧ t = { s with freel := pre ++ post, used := s.used ++ [b] }) ∨
        ((∀ x ∈ s.freel, x.cap < size) ∧ s.arena + size ≤ DATA_SIZE ∧ off = s.arena ∧
          t = { s with arena := s.arena + size, used := s.used ++ [⟨s.arena, size⟩] })) := by
  unfold alloc at h
  split at h
  · cases h
  · next h0 =>
    refine ⟨Nat.pos_of_ne_zero h0, ?_⟩
    split at h
    · next b hb =>
      cases h
      obtain ⟨pre, post, hl, hpre, hp, he⟩ := find?_split hb
      exact .inl ⟨pre, b, post, hl, fun x hx => by simpa [Block.fits] using hpre x hx,
        by simpa [Block.fits] using hp, rfl, by rw [he]⟩
    · next hn =>
      split at h
      · cases h
      · next hs =>
        cases h
        exact .inr ⟨fun x hx => by simpa [Block.fits] using List.find?_eq_none.mp hn x hx, by omega,
          rfl, rfl⟩

/-- All `free` can do when it answers. -/
theorem free_cases {off : Nat} {s t : State} (h : free off s = .ok t) :
    ∃ pre b post, s.used = pre ++ b :: post ∧ (∀ x ∈ pre, x.off ≠ off) ∧ b.off = off ∧
      t = { s with used := pre ++ post, freel := s.freel ++ [b] } := by
  unfold free at h
  split at h
  · cases h
  · next b hb =>
    cases h
    obtain ⟨pre, post, hl, hpre, hp, he⟩ := find?_split hb
    exact ⟨pre, b, post, hl, fun x hx => by simpa [Block.startsAt] using hpre x hx,
      by simpa [Block.startsAt] using hp, by rw [he]⟩

theorem Block.apart_comm {b c : Block} : b.apart c ↔ c.apart b := Or.comm

/-- Moving a block between the two lists keeps the allocator's invariant. -/
theorem allocInv_of_perm {s t : State} (ha : t.arena = s.arena)
    (hp : (t.used ++ t.freel).Perm (s.used ++ s.freel)) (h : s.allocInv) : t.allocInv := by
  obtain ⟨h1, h2, h3⟩ := h
  refine ⟨by rw [ha]; exact h1, fun b hb => by rw [ha]; exact h2 b (hp.mem_iff.mp hb), ?_⟩
  exact (hp.pairwise_iff fun h => Block.apart_comm.mp h).mpr h3

theorem alloc_keeps_allocInv {size off : Nat} {s t : State} (hi : s.allocInv)
    (h : alloc size s = .ok (off, t)) : t.allocInv := by
  obtain ⟨h0, ⟨pre, b, post, hl, -, -, -, rfl⟩ | ⟨-, hs, -, rfl⟩⟩ := alloc_cases h
  · refine allocInv_of_perm (s := s) rfl ?_ hi
    rw [hl]
    simp only [List.append_assoc, List.singleton_append]
    exact List.Perm.append_left _ List.perm_middle.symm
  · obtain ⟨h1, h2, h3⟩ := hi
    have hp : List.Perm ((s.used ++ [⟨s.arena, size⟩]) ++ s.freel)
        (Block.mk s.arena size :: (s.used ++ s.freel)) := by
      simp only [List.append_assoc, List.singleton_append]
      exact List.perm_middle
    refine ⟨hs, fun b hb => ?_, ?_⟩
    · rcases List.mem_cons.mp (hp.mem_iff.mp hb) with rfl | hb
      · exact ⟨h0, Nat.le_refl _⟩
      · exact ⟨(h2 b hb).1, Nat.le_trans (h2 b hb).2 (Nat.le_add_right _ _)⟩
    · exact (hp.pairwise_iff fun h => Block.apart_comm.mp h).mpr
        (List.pairwise_cons.mpr ⟨fun b hb => .inr (h2 b hb).2, h3⟩)

theorem free_keeps_allocInv {off : Nat} {s t : State} (hi : s.allocInv) (h : free off s = .ok t) :
    t.allocInv := by
  obtain ⟨pre, b, post, hl, -, -, rfl⟩ := free_cases h
  refine allocInv_of_perm (s := s) rfl ?_ hi
  rw [hl]
  simp only [List.append_assoc, List.cons_append]
  refine List.Perm.append_left _ ?_
  rw [← List.append_assoc]
  exact List.perm_append_comm

end Sys2Proof.Machine
end

