-- ==== Sys2Proof/Laws/Assembler.lean ====
section
/-! SUPPORT. The assembler: what each pass does (30_encoding.md R72-R75), and all that an assembly that
succeeds can yield (R77, R79). -/

namespace Sys2Proof.Machine

open Sys2Proof.Config

/-! ## Name tables -/

theorem lookup_append_some {L : Names} {x y : Lexeme} {k p : Nat} (h : L.lookup x = some k) :
    (L ++ [(y, p)]).lookup x = some k := by
  rw [List.lookup_append, h]
  rfl

theorem lookup_append_new {L : Names} {x : Lexeme} {p : Nat} (h : L.lookup x = none) :
    (L ++ [(x, p)]).lookup x = some p := by
  rw [List.lookup_append, h]
  simp [List.lookup]

/-! ## Pass 1 (30_encoding.md R72, R73) -/

theorem cellOf_ok {n : Nat} {b : Byte} (h : cellOf n = .ok b) : b.toNat = n := by
  unfold cellOf at h
  split at h
  · cases h; simp only [toCell, BitVec.toNat_ofNat]; omega
  · cases h

/-- A list of values as cells: the cells hold the values. -/
theorem mapM_cellOf_ok {vs : List Nat} {cs : List Byte} (h : vs.mapM cellOf = .ok cs) :
    cs.map BitVec.toNat = vs := by
  induction vs generalizing cs with
  | nil => cases h; rfl
  | cons v vs ih =>
    rw [List.mapM_cons] at h
    cases hv : cellOf v with
    | error e => rw [hv] at h; cases h
    | ok b =>
      cases hr : vs.mapM cellOf with
      | error e => rw [hv, hr] at h; cases h
      | ok r => rw [hv, hr] at h; cases h; simp [cellOf_ok hv, ih hr]

/-- What `p` has read stands in `q`: no name has moved and no cell has changed. -/
def Pass1.within (p q : Pass1) : Prop :=
  (∀ x k, p.vars.lookup x = some k → q.vars.lookup x = some k) ∧ p.cells <+: q.cells

theorem Pass1.within_refl (p : Pass1) : p.within p := ⟨fun _ _ => id, List.prefix_refl _⟩

theorem Pass1.within_trans {p q r : Pass1} (h : p.within q) (h' : q.within r) : p.within r :=
  ⟨fun x k hk => h'.1 x k (h.1 x k hk), h.2.trans h'.2⟩

/-- `x` is declared and the cells from its offset on hold `vs` (30_encoding.md R72). -/
def Pass1.declares (p : Pass1) (x : Lexeme) (vs : List Nat) : Prop :=
  ∃ off, p.vars.lookup x = some off ∧ off + vs.length ≤ p.cells.length ∧
    ∀ (k v : Nat), vs[k]? = some v → ∃ b, p.cells[off + k]? = some b ∧ b.toNat = v

theorem Pass1.declares_mono {p q : Pass1} {x : Lexeme} {vs : List Nat} (h : p.within q)
    (hd : p.declares x vs) : q.declares x vs := by
  obtain ⟨off, ho, hl, hc⟩ := hd
  obtain ⟨more, hm⟩ := h.2
  refine ⟨off, h.1 x off ho, Nat.le_trans hl h.2.length_le, fun k v hv => ?_⟩
  obtain ⟨b, hb, he⟩ := hc k v hv
  have hlt := (List.getElem?_eq_some_iff.mp hb).1
  exact ⟨b, by rw [← hm, List.getElem?_append_left hlt, hb], he⟩

/-- All a declaration that is accepted does. -/
theorem declareVar_ok {p q : Pass1} {x : Lexeme} {vs : List Nat} (h : declareVar p x vs = .ok q) :
    p.within q ∧ q.declares x vs := by
  unfold declareVar at h
  split at h
  · cases h
  · next hn =>
    cases hc : vs.mapM cellOf with
    | error e => rw [hc] at h; cases h
    | ok cs =>
      rw [hc] at h
      cases h
      have hm := mapM_cellOf_ok hc
      refine ⟨⟨fun y k hk => lookup_append_some hk, List.prefix_append _ _⟩, p.cells.length,
        lookup_append_new (Option.not_isSome_iff_eq_none.mp hn), by simp [← hm], fun k v hv => ?_⟩
      rw [← hm, List.getElem?_map, Option.map_eq_some_iff] at hv
      obtain ⟨b, hb, he⟩ := hv
      exact ⟨b, by rw [List.getElem?_append_right (by omega), Nat.add_sub_cancel_left, hb], he⟩

theorem pass1Outside_within {p q : Pass1} {st : LetState} {t : Token}
    (h : pass1Outside p t = .ok (st, q)) : p.within q := by
  cases t <;> simp only [pass1Outside, Except.ok.injEq, Prod.mk.injEq, reduceCtorEq] at h <;>
    (rw [← h.2]; exact ⟨fun _ _ => id, List.prefix_refl _⟩)

/-- Peel a computation that succeeds. -/
theorem except_bind_ok {ε α β : Type} {x : Except ε α} {f : α → Except ε β} {b : β}
    (h : x >>= f = .ok b) : ∃ a, x = .ok a ∧ f a = .ok b := by
  cases x with
  | error e => cases h
  | ok a => exact ⟨a, rfl, h⟩

theorem pass1Token_within {st st' : LetState} {p q : Pass1} {t : Token}
    (h : pass1Token st p t = .ok (st', q)) : p.within q := by
  unfold pass1Token at h
  split at h
  · exact pass1Outside_within h
  all_goals first
    | (cases h; done)
    | (cases h; exact p.within_refl)
    | (obtain ⟨r, hr, h⟩ := except_bind_ok h
       first
        | (cases h; exact (declareVar_ok hr).1)
        | exact Pass1.within_trans (declareVar_ok hr).1 (pass1Outside_within h))

theorem pass1End_within {st : LetState} {p q : Pass1} (h : pass1End st p = .ok q) : p.within q := by
  cases st <;> simp only [pass1End, reduceCtorEq, Except.ok.injEq] at h
  · exact h ▸ p.within_refl
  · exact (declareVar_ok h).1

theorem pass1_cons_ok {st : LetState} {p r : Pass1} {t : Token} {ts : List Token}
    (h : pass1 st p (t :: ts) = .ok r) :
    ∃ st' q, pass1Token st p t = .ok (st', q) ∧ pass1 st' q ts = .ok r := by
  obtain ⟨⟨st', q⟩, hq, h⟩ := except_bind_ok h
  exact ⟨st', q, hq, h⟩

theorem pass1_within {st : LetState} {p q : Pass1} {ts : List Token} (h : pass1 st p ts = .ok q) :
    p.within q := by
  induction ts generalizing st p with
  | nil => exact pass1End_within h
  | cons t ts ih =>
    obtain ⟨st', r, hr, h⟩ := pass1_cons_ok h
    exact Pass1.within_trans (pass1Token_within hr) (ih h)

/-- Pass 1 reads a text's first part before the rest. -/
theorem pass1_append_ok {st : LetState} {p q : Pass1} {ts us : List Token}
    (h : pass1 st p (ts ++ us) = .ok q) : ∃ st' p', pass1 st' p' us = .ok q := by
  induction ts generalizing st p with
  | nil => exact ⟨st, p, h⟩
  | cons t ts ih =>
    obtain ⟨st', r, -, h⟩ := pass1_cons_ok h
    exact ih h

/-- A `let` is accepted only between declarations, and a name is read next. -/
theorem pass1Token_let {st st' : LetState} {p q : Pass1}
    (h : pass1Token st p .letKw = .ok (st', q)) : st' = .name := by
  cases st with
  | outside => cases h; rfl
  | named x =>
    obtain ⟨r, -, h⟩ := except_bind_ok h
    cases h; rfl
  | name => cases h
  | value x => cases h
  | item x vs => cases vs <;> cases h
  | sep x vs => cases h

/-- After `let x`, the name alone: one cell with value 0 (30_encoding.md R72, first form). -/
theorem pass1_named {p q : Pass1} {x : Lexeme} {ts : List Token} (h : pass1 (.named x) p ts = .ok q)
    (hc : ts.head? ≠ some .comma) : q.declares x [0] := by
  cases ts with
  | nil => exact (declareVar_ok h).2
  | cons t ts =>
    obtain ⟨st', r, hr, h⟩ := pass1_cons_ok h
    have hr : declareVar p x [0] >>= (fun p => pass1Outside p t) = .ok (st', r) := by
      rw [← hr]
      cases t <;> first | rfl | exact absurd rfl hc
    obtain ⟨r', hd, ho⟩ := except_bind_ok hr
    exact Pass1.declares_mono (Pass1.within_trans (pass1Outside_within ho) (pass1_within h))
      (declareVar_ok hd).2

/-- After `let x,` a number: one cell with its value (30_encoding.md R72, second form). -/
theorem pass1_value {p q : Pass1} {x : Lexeme} {v : Nat} {ts : List Token}
    (h : pass1 (.value x) p (.num v :: ts) = .ok q) : q.declares x [v] := by
  obtain ⟨st', r, hr, h⟩ := pass1_cons_ok h
  obtain ⟨r', hd, he⟩ := except_bind_ok hr
  cases he
  exact Pass1.declares_mono (pass1_within h) (declareVar_ok hd).2

/-- In a list, after the values `us`: the values that follow, up to the bracket (30_encoding.md R72, third
form). -/
theorem pass1_items {p q : Pass1} {x : Lexeme} {us vs : List Nat} {ts : List Token} (hv : vs ≠ [])
    (h : pass1 (.item x us) p ((vs.map Token.num).intersperse .comma ++ .rbrack :: ts) = .ok q) :
    q.declares x (us ++ vs) := by
  induction vs generalizing us p with
  | nil => exact absurd rfl hv
  | cons v vs ih =>
    cases vs with
    | nil =>
      obtain ⟨st', r, hr, h⟩ := pass1_cons_ok h
      cases hr
      obtain ⟨st', r, hr, h⟩ := pass1_cons_ok h
      obtain ⟨r', hd, he⟩ := except_bind_ok hr
      cases he
      exact Pass1.declares_mono (pass1_within h) (declareVar_ok hd).2
    | cons w vs =>
      obtain ⟨st', r, hr, h⟩ := pass1_cons_ok h
      cases hr
      obtain ⟨st', r, hr, h⟩ := pass1_cons_ok h
      cases hr
      simpa using ih (by simp) h

/-! ## Pass 2, one token at a time (30_encoding.md R74) -/

theorem pass2_label (L : Names) (pos : Nat) (x : Lexeme) (ts : List Token) :
    pass2 L pos (.labelDecl x :: ts) =
      if (L.lookup x).isSome then .error (.duplicateLabel x) else pass2 (L ++ [(x, pos)]) pos ts := by
  rw [pass2]

theorem pass2_advances (L : Names) (pos : Nat) {t : Token} (ts : List Token) (h : t.advances = true) :
    pass2 L pos (t :: ts) = (pass2 L (pos + 1) ts).map fun p => (p.1, t :: p.2) := by
  rw [pass2, if_pos h]
  · cases pass2 L (pos + 1) ts <;> rfl
  · rintro x rfl; cases h

theorem pass2_skips (L : Names) (pos : Nat) {t : Token} (ts : List Token) (h : t.advances = false)
    (hl : ∀ x, t ≠ .labelDecl x) : pass2 L pos (t :: ts) = pass2 L pos ts := by
  rw [pass2, if_neg (by simp [h])]
  exact hl

/-- The three ways pass 2 reads a token. -/
theorem Token.pass2_kinds (t : Token) :
    (∃ x, t = .labelDecl x ∧ t.advances = false) ∨ t.advances = true ∨
      (t.advances = false ∧ ∀ x, t ≠ .labelDecl x) := by
  cases t <;> simp [Token.advances]

/-- The only error pass 2 finds. -/
theorem pass2_error {L : Names} {pos : Nat} {ts : List Token} {e : AsmError}
    (h : pass2 L pos ts = .error e) : ∃ y, e = .duplicateLabel y := by
  induction ts generalizing L pos with
  | nil => cases h
  | cons t ts ih =>
    rcases t.pass2_kinds with ⟨x, rfl, -⟩ | ht | ⟨ht, hl⟩
    · rw [pass2_label] at h
      split at h
      · cases h; exact ⟨_, rfl⟩
      · exact ih h
    · rw [pass2_advances L pos ts ht] at h
      cases hr : pass2 L (pos + 1) ts with
      | error e' => rw [hr] at h; cases h; exact ih hr
      | ok p => rw [hr] at h; cases h
    · rw [pass2_skips L pos ts ht hl] at h
      exact ih h

/-- The tokens pass 2 leaves are those that advance. -/
theorem pass2_rest {L labels : Names} {pos : Nat} {ts rest : List Token}
    (h : pass2 L pos ts = .ok (labels, rest)) : rest = ts.filter Token.advances := by
  induction ts generalizing L pos rest with
  | nil => cases h; rfl
  | cons t ts ih =>
    rcases t.pass2_kinds with ⟨x, rfl, ht⟩ | ht | ⟨ht, hl⟩
    · rw [pass2_label] at h
      split at h
      · cases h
      · rw [List.filter_cons_of_neg (by simp [ht])]
        exact ih h
    · rw [pass2_advances L pos ts ht] at h
      cases hr : pass2 L (pos + 1) ts with
      | error e => rw [hr] at h; cases h
      | ok p =>
        rw [hr] at h
        cases h
        rw [List.filter_cons_of_pos ht, ih hr]
    · rw [pass2_skips L pos ts ht hl] at h
      rw [List.filter_cons_of_neg (by simp [ht])]
      exact ih h

/-! ## Encoding (30_encoding.md R75) -/

/-- "Each atom becomes exactly one cell", and so does an opcode (30_encoding.md R75). -/
theorem encodeToken_one {L V : Names} {t : Token} {bs : List Byte} (ht : t.advances = true)
    (h : encodeToken L V t = .ok bs) : ∃ b, bs = [b] := by
  have one {n : Nat} {bs : List Byte} (h : (cellOf n >>= fun b => pure [b]) = Except.ok bs) :
      ∃ b, bs = [b] := by
    obtain ⟨b, -, hb⟩ := except_bind_ok h
    cases hb
    exact ⟨b, rfl⟩
  cases t with
  | opcode op => cases h; exact ⟨op, rfl⟩
  | num n => exact one h
  | ident x =>
    simp only [encodeToken] at h
    split at h
    · cases h
    · exact one h
  | ref x =>
    simp only [encodeToken] at h
    split at h
    · cases h
    · exact one h
  | labelDecl x => cases ht
  | letKw => cases ht
  | lbrack => cases ht
  | rbrack => cases ht
  | comma => cases ht

/-- The encoded stream has one byte for each token, in order (30_encoding.md R75). -/
theorem mapM_encodeToken_ok {L V : Names} {ts : List Token} {bytes : List (List Byte)}
    (ha : ∀ t ∈ ts, t.advances = true) (h : ts.mapM (encodeToken L V) = .ok bytes) :
    bytes.flatten.length = ts.length ∧
      ∀ (k : Nat) (t : Token), ts[k]? = some t →
        ∃ b, encodeToken L V t = .ok [b] ∧ bytes.flatten[k]? = some b := by
  induction ts generalizing bytes with
  | nil => cases h; simp
  | cons u ts ih =>
    rw [List.mapM_cons] at h
    obtain ⟨bs, hb, h⟩ := except_bind_ok h
    obtain ⟨r, hr, h⟩ := except_bind_ok h
    obtain ⟨b, rfl⟩ := encodeToken_one (ha u (by simp)) hb
    cases h
    obtain ⟨hl, hk⟩ := ih (fun w hw => ha w (by simp [hw])) hr
    refine ⟨by simpa using hl, fun k t ht => ?_⟩
    cases k with
    | zero => cases ht; exact ⟨b, hb, rfl⟩
    | succ k => simpa using hk k t ht

/-! ## What an assembly yields -/

/-- All an assembly that succeeds can yield: what the passes gave, within the bounds of both images. -/
theorem assemble_ok {src : List Char} {im : Image} (h : assemble src = .ok im) :
    ∃ p labels rest bytes,
      pass1 .outside ⟨[], [], []⟩ (tokenize .idle src) = .ok p ∧
      pass2 [] 0 p.rest = .ok (labels, rest) ∧
      rest.mapM (encodeToken labels p.vars) = .ok bytes ∧
      p.cells.length ≤ DATA_SIZE ∧ bytes.flatten.length ≤ PROG_SIZE ∧
      im = ⟨bytes.flatten, dataImage p.cells, p.cells.length⟩ := by
  obtain ⟨p, h1, h⟩ := except_bind_ok h
  split at h
  · cases h
  · next hd =>
    obtain ⟨⟨labels, rest⟩, h2, h⟩ := except_bind_ok h
    obtain ⟨bytes, h3, h⟩ := except_bind_ok h
    split at h
    · cases h
    · next hp =>
      cases h
      exact ⟨p, labels, rest, bytes, h1, h2, h3, Nat.le_of_not_lt hd, Nat.le_of_not_lt hp, rfl⟩

theorem dataImage_offsets (cells : List Byte) :
    (dataImage cells).map Prod.fst = List.range cells.length := by
  unfold dataImage
  rw [List.map_map]
  exact (List.zipIdx_map_snd 0 cells).trans List.range_eq_range'.symm

theorem mem_dataImage {cells : List Byte} {k : Nat} {b : Byte} (h : cells[k]? = some b) :
    (k, b) ∈ dataImage cells := by
  unfold dataImage
  exact List.mem_map.mpr ⟨(b, k), List.mem_zipIdx_iff_getElem?.mpr h, rfl⟩

end Sys2Proof.Machine
end

