-- ==== Sys2Proof/Laws/Config.lean ====
section
/-! SUPPORT. The memory layout and the capacities as numbers (00_scope.md R5, R6), for linear arithmetic. -/

namespace Sys2Proof.Config

/-- Every constant as its number: `have := layout; omega`. -/
theorem layout :
    MEM_SIZE = 24576 ∧ PROG_BASE = 0 ∧ PROG_SIZE = 4096 ∧ VIDEO_BASE = 4096 ∧ VIDEO_W = 128 ∧
      VIDEO_H = 128 ∧ VIDEO_SIZE = 16384 ∧ DATA_BASE = 20480 ∧ DATA_SIZE = 3840 ∧
      CONFIG_BASE = 24320 ∧ CONFIG_SIZE = 256 ∧ STACK_CAP = 256 ∧ CALL_CAP = 256 ∧
      FRAME_CELLS = 64 ∧ BLIT_W = 8 ∧ BLIT_H = 8 := by decide

/-- "The region values must keep DATA_SIZE >= CELL_MOD and PROG_BASE + CELL_MOD <= PROG_BASE + PROG_SIZE"
(00_scope.md R7): every one-cell operand names a cell of its region. -/
theorem operands_fit : CELL_MOD ≤ DATA_SIZE ∧ PROG_BASE + CELL_MOD ≤ PROG_BASE + PROG_SIZE := by decide

theorem one_le_waitScale : 1 ≤ waitScale := Nat.succ_le_succ (Nat.zero_le _)

end Sys2Proof.Config
end

