-- ==== Sys2Proof/Laws/Decode.lean ====
section
/-! SUPPORT. What the opcode map is, as one lemma: every byte's shape builds instructions that encode back to
it, of the shape's length. -/

namespace Sys2Proof

/-- What the shape of an opcode byte promises of the instructions it builds. -/
def Shape.Sound (op : Byte) : Shape → Prop
  | .none i => encode i = [op] ∧ i.wellFormed = true
  | .one k => ∀ b, encode (k b) = [op, b] ∧ (k b).wellFormed = true
  | .two k => ∀ b c, encode (k b c) = [op, b, c] ∧ (k b c).wellFormed = true

theorem decodeOpcode_illegal {op : Byte} (h : firstIllegal ≤ op.toNat) :
    decodeOpcode op = .none (.illegal op) := by
  unfold decodeOpcode
  split <;> first | rfl | exact absurd h (by decide)

/-- Every opcode byte is read as the opcode map of 30_encoding.md R63 encodes it. -/
theorem decodeOpcode_sound (op : Byte) : (decodeOpcode op).Sound op := by
  by_cases h : firstIllegal ≤ op.toNat
  · rw [decodeOpcode_illegal h]
    exact ⟨rfl, decide_eq_true h⟩
  · have hop : op = BitVec.ofNat 8 op.toNat := by simp
    have hlt : op.toNat < 43 := Nat.lt_of_not_le h
    generalize op.toNat = n at hop hlt
    subst hop
    interval_cases n <;>
      first
        | exact ⟨rfl, rfl⟩
        | exact fun _ => ⟨rfl, rfl⟩
        | exact fun _ _ => ⟨rfl, rfl⟩

theorem length_encode (i : Instr) : (encode i).length = i.length := by
  unfold encode Instr.length
  rw [List.length_cons, Nat.add_comm]

/-- The length of an instruction is that of its opcode's shape (30_encoding.md R64). -/
theorem decodeOpcode_length (op : Byte) :
    match decodeOpcode op with
    | .none i => i.length = 1
    | .one k => ∀ b, (k b).length = 2
    | .two k => ∀ b c, (k b c).length = 3 := by
  have h := decodeOpcode_sound op
  cases hs : decodeOpcode op with
  | none i => rw [hs] at h; exact (length_encode i).symm.trans (by rw [h.1]; rfl)
  | one k => rw [hs] at h; exact fun b => (length_encode _).symm.trans (by rw [(h b).1]; rfl)
  | two k => rw [hs] at h; exact fun b c => (length_encode _).symm.trans (by rw [(h b c).1]; rfl)

/-- All that decoding can answer. -/
theorem decode_ok {op : Byte} {bs rest : List Byte} {i : Instr}
    (h : decode (op :: bs) = .ok (i, rest)) :
    (decodeOpcode op = .none i ∧ bs = rest) ∨
      (∃ k b, decodeOpcode op = .one k ∧ i = k b ∧ bs = b :: rest) ∨
      ∃ k b c, decodeOpcode op = .two k ∧ i = k b c ∧ bs = b :: c :: rest := by
  simp only [decode] at h
  split at h
  · next hs => cases h; exact .inl ⟨hs, rfl⟩
  · next k b _ hs => cases h; exact .inr (.inl ⟨k, b, hs, rfl, rfl⟩)
  · next k b c _ hs => cases h; exact .inr (.inr ⟨k, b, c, hs, rfl, rfl⟩)
  · cases h

/-- No two rows of the opcode map share an opcode or a mnemonic (30_encoding.md R63, R81). -/
theorem opcodeTable_distinct :
    opcodeTable.Pairwise fun r r' => r.opcode ≠ r'.opcode ∧ r.mnemonic ≠ r'.mnemonic := by decide

/-- The map has one row for every opcode byte below the first illegal one, in order (30_encoding.md R63). -/
theorem opcodeTable_opcodes :
    opcodeTable.map (fun r => r.opcode.toNat) = List.range firstIllegal := by decide

end Sys2Proof
end

