-- ==== Sys2Proof/Laws/Memory.lean ====
section
/-! SUPPORT. The laws of the cell array: read after write, the canonical form kept by every operation, and
equal reads make equal canonical memories. -/

namespace Sys2Proof.Machine

open Sys2Proof.Config

@[simp] theorem Memory.read_nil (a : Nat) : Memory.read [] a = unlisted := rfl

theorem Memory.read_cons (c : Host.Cell) (m : Memory) (a : Nat) :
    Memory.read (c :: m) a = if a = c.1 then c.2 else Memory.read m a := rfl

/-- A write leaves every other cell alone, in any memory. -/
theorem Memory.read_write_other {a b : Nat} (v : Byte) (h : b ≠ a) (m : Memory) :
    (m.write a v).read b = m.read b := by
  induction m with
  | nil =>
    unfold Memory.write
    split <;> simp [Memory.read_cons, h]
  | cons c m ih =>
    unfold Memory.write
    split
    · split <;> simp [Memory.read_cons, h]
    · split
      · next _ hac => split <;> simp [Memory.read_cons, ← hac, h]
      · simp [Memory.read_cons, ih]

theorem Memory.read_of_lt {m : Memory} {a : Nat} (h : ∀ c ∈ m, a < c.1) : m.read a = unlisted := by
  induction m with
  | nil => rfl
  | cons c m ih =>
    have hc := h c (by simp)
    rw [Memory.read_cons, if_neg (by omega), ih fun d hd => h d (by simp [hd])]

theorem Memory.read_of_not_mem {m : Memory} {a : Nat} (h : ∀ c ∈ m, c.1 ≠ a) :
    m.read a = unlisted := by
  induction m with
  | nil => rfl
  | cons c m ih =>
    rw [Memory.read_cons, if_neg (h c (by simp)).symm, ih fun d hd => h d (by simp [hd])]

/-- A read after a write to the same cell gives the value written. -/
theorem Memory.read_write_same {m : Memory} (hm : m.wf) (a : Nat) (v : Byte) :
    (m.write a v).read a = v := by
  induction m with
  | nil =>
    unfold Memory.write
    split <;> simp_all [Memory.read_cons]
  | cons c m ih =>
    obtain ⟨hp, hc⟩ := hm
    rw [List.pairwise_cons] at hp
    unfold Memory.write
    split
    · next hlt =>
      split
      · next hv =>
        subst hv
        refine Memory.read_of_lt fun d hd => ?_
        rcases List.mem_cons.mp hd with rfl | hd
        · exact hlt
        · exact Nat.lt_trans hlt (hp.1 d hd)
      · simp [Memory.read_cons]
    · split
      · next _ hac =>
        split
        · next hv =>
          subst hv hac
          exact Memory.read_of_lt hp.1
        · simp [Memory.read_cons]
      · next hac => simp [Memory.read_cons, hac, ih ⟨hp.2, fun d hd => hc d (by simp [hd])⟩]

theorem Memory.read_write {m : Memory} (hm : m.wf) (a b : Nat) (v : Byte) :
    (m.write a v).read b = if b = a then v else m.read b := by
  split
  · next h => subst h; exact Memory.read_write_same hm _ _
  · next h => exact Memory.read_write_other v h m

theorem Memory.mem_write {m : Memory} {a : Nat} {v : Byte} {c : Host.Cell} (h : c ∈ m.write a v) :
    c ∈ m ∨ (c = (a, v) ∧ v ≠ unlisted) := by
  induction m with
  | nil =>
    unfold Memory.write at h
    split at h <;> simp_all
  | cons d m ih =>
    unfold Memory.write at h
    split at h
    · split at h <;> (simp_all; try tauto)
    · split at h
      · split at h <;> (simp_all; try tauto)
      · rcases List.mem_cons.mp h with h | h
        · simp [h]
        · rcases ih h with h | h
          · simp [h]
          · exact .inr h

/-- A write inside the array keeps the canonical form. -/
theorem Memory.write_wf {m : Memory} (hm : m.wf) {a : Nat} (ha : a < MEM_SIZE) (v : Byte) :
    (m.write a v).wf := by
  constructor
  · obtain ⟨hp, -⟩ := hm
    induction m with
    | nil => unfold Memory.write; split <;> simp
    | cons c m ih =>
      rw [List.pairwise_cons] at hp
      unfold Memory.write
      split
      · next hlt =>
        split
        · exact List.pairwise_cons.mpr hp
        · refine List.pairwise_cons.mpr ⟨fun d hd => ?_, List.pairwise_cons.mpr hp⟩
          rcases List.mem_cons.mp hd with rfl | hd
          · exact hlt
          · exact Nat.lt_trans hlt (hp.1 d hd)
      · split
        · next _ hac =>
          split
          · exact hp.2
          · exact List.pairwise_cons.mpr ⟨fun d hd => hac ▸ hp.1 d hd, hp.2⟩
        · next hlt hne =>
          refine List.pairwise_cons.mpr ⟨fun d hd => ?_, ih hp.2⟩
          rcases Memory.mem_write hd with hd | ⟨rfl, -⟩
          · exact hp.1 d hd
          · show c.1 < a
            omega
  · intro c hc
    rcases Memory.mem_write hc with hc | ⟨rfl, hv⟩
    · exact hm.2 c hc
    · exact ⟨ha, hv⟩

theorem Memory.read_of_mem {m : Memory} (hm : m.wf) {c : Host.Cell} (h : c ∈ m) :
    m.read c.1 = c.2 := by
  obtain ⟨hp, hc⟩ := hm
  induction m with
  | nil => simp at h
  | cons d m ih =>
    rw [List.pairwise_cons] at hp
    rcases List.mem_cons.mp h with rfl | h
    · simp [Memory.read_cons]
    · have := hp.1 c h
      rw [Memory.read_cons, if_neg (by omega)]
      exact ih h hp.2 fun e he => hc e (by simp [he])

theorem Memory.mem_of_read {m : Memory} {a : Nat} (h : m.read a ≠ unlisted) : (a, m.read a) ∈ m := by
  induction m with
  | nil => simp at h
  | cons d m ih =>
    by_cases hd : a = d.1
    · simp [Memory.read_cons, hd]
    · rw [Memory.read_cons, if_neg hd] at h ⊢
      exact List.mem_cons_of_mem _ (ih h)

/-- Canonical memories that read alike are equal as data. -/
theorem Memory.ext_of_read {m n : Memory} (hm : m.wf) (hn : n.wf) (h : ∀ a, m.read a = n.read a) :
    m = n := by
  have sub : ∀ {m n : Memory}, m.wf → n.wf → (∀ a, m.read a = n.read a) → ∀ c ∈ m, c ∈ n := by
    intro m n hm hn h c hc
    have hr := Memory.read_of_mem hm hc
    have hv := (hm.2 c hc).2
    have := Memory.mem_of_read (m := n) (a := c.1) (by rw [← h, hr]; exact hv)
    rwa [← h, hr] at this
  have strict : ∀ {m : Memory}, m.wf → m.Pairwise (fun c c' => c.1 < c'.1) := fun h => h.1
  have nodup : ∀ {m : Memory}, m.wf → m.Nodup := fun h =>
    h.1.imp fun {c c'} hlt heq => by subst heq; exact Nat.lt_irrefl _ hlt
  have perm : m.Perm n :=
    (List.perm_ext_iff_of_nodup (nodup hm) (nodup hn)).mpr fun c =>
      ⟨sub hm hn h c, sub hn hm (fun a => (h a).symm) c⟩
  exact perm.eq_of_pairwise (fun _ _ _ _ h h' => absurd h' (by simp only [not_lt]; exact Nat.le_of_lt h))
    (strict hm) (strict hn)

/-! ## Loops of writes -/

theorem Memory.read_writeAll_outside {m : Memory} {base : Nat} {vs : List Byte} {a : Nat}
    (h : a < base ∨ base + vs.length ≤ a) : (m.writeAll base vs).read a = m.read a := by
  induction vs generalizing m base with
  | nil => rfl
  | cons v vs ih =>
    simp only [List.length_cons] at h
    rw [Memory.writeAll, ih (by omega), Memory.read_write_other v (by omega)]

theorem Memory.writeAll_wf {m : Memory} (hm : m.wf) {base : Nat} {vs : List Byte}
    (h : base + vs.length ≤ MEM_SIZE) : (m.writeAll base vs).wf := by
  induction vs generalizing m base with
  | nil => exact hm
  | cons v vs ih =>
    simp only [List.length_cons] at h
    rw [Memory.writeAll]
    exact ih (Memory.write_wf hm (by omega) v) (by omega)

theorem Memory.read_writeAll_inside {m : Memory} (hm : m.wf) {base : Nat} {vs : List Byte}
    (hb : base + vs.length ≤ MEM_SIZE) {k : Nat} (hk : k < vs.length) :
    (m.writeAll base vs).read (base + k) = vs[k] := by
  induction vs generalizing m base k with
  | nil => simp at hk
  | cons v vs ih =>
    simp only [List.length_cons] at hb hk
    have hw := Memory.write_wf hm (a := base) (by omega) v
    rw [Memory.writeAll]
    cases k with
    | zero => rw [Memory.read_writeAll_outside (by omega)]; exact Memory.read_write_same hm _ _
    | succ k =>
      have := ih hw (base := base + 1) (by omega) (k := k) (by omega)
      rwa [show base + 1 + k = base + (k + 1) by omega] at this

/-! ## Filling a run of cells -/

theorem Memory.mem_run {lo n : Nat} {v : Byte} {c : Host.Cell} :
    c ∈ Memory.run lo n v ↔ v ≠ unlisted ∧ (lo ≤ c.1 ∧ c.1 < lo + n) ∧ c.2 = v := by
  unfold Memory.run
  split
  · simp_all
  · next hv =>
    simp only [List.mem_map, List.mem_range'_1, ne_eq, hv, not_false_eq_true, true_and]
    constructor
    · rintro ⟨a, ha, rfl⟩; exact ⟨ha, rfl⟩
    · rintro ⟨ha, hc⟩; exact ⟨c.1, ha, by rw [← hc]⟩

theorem Memory.mem_fill {m : Memory} {lo n : Nat} {v : Byte} {c : Host.Cell} :
    c ∈ m.fill lo n v ↔
      (c ∈ m ∧ (c.1 < lo ∨ lo + n ≤ c.1)) ∨ (v ≠ unlisted ∧ (lo ≤ c.1 ∧ c.1 < lo + n) ∧ c.2 = v) := by
  simp only [Memory.fill, List.mem_append, List.mem_filter, Memory.mem_run, decide_eq_true_eq]
  tauto

/-- Filling cells of the array keeps the canonical form. -/
theorem Memory.fill_wf {m : Memory} (hm : m.wf) {lo n : Nat} (h : lo + n ≤ MEM_SIZE) (v : Byte) :
    (m.fill lo n v).wf := by
  constructor
  · unfold Memory.fill
    rw [List.pairwise_append, List.pairwise_append]
    refine ⟨⟨hm.1.filter _, ?_, ?_⟩, hm.1.filter _, ?_⟩
    · unfold Memory.run
      split
      · simp
      · rw [List.pairwise_map]; exact List.pairwise_lt_range'
    · intro c hc d hd
      simp only [List.mem_filter, decide_eq_true_eq] at hc
      have := (Memory.mem_run.mp hd).2.1
      omega
    · intro c hc d hd
      simp only [List.mem_append, List.mem_filter, decide_eq_true_eq, Memory.mem_run] at hc hd
      omega
  · intro c hc
    rcases Memory.mem_fill.mp hc with ⟨hc, -⟩ | ⟨hv, hlt, hcv⟩
    · exact hm.2 c hc
    · exact ⟨by omega, hcv ▸ hv⟩

/-- Dropping cells at other addresses leaves a read alone. -/
theorem Memory.read_filter {m : Memory} {p : Host.Cell → Bool} {a : Nat} (h : ∀ v, p (a, v) = true) :
    Memory.read (m.filter p) a = m.read a := by
  induction m with
  | nil => rfl
  | cons c m ih =>
    by_cases hp : p c = true
    · rw [List.filter_cons_of_pos hp, Memory.read_cons, Memory.read_cons, ih]
    · rw [List.filter_cons_of_neg hp, Memory.read_cons, if_neg, ih]
      rintro rfl
      exact hp (h c.2)

theorem Memory.read_append_left {m n : Memory} {a : Nat} (h : ∀ c ∈ m, c.1 ≠ a) :
    Memory.read (m ++ n) a = n.read a := by
  induction m with
  | nil => rfl
  | cons c m ih =>
    rw [List.cons_append, Memory.read_cons, if_neg (h c (by simp)).symm, ih fun d hd => h d (by simp [hd])]

theorem Memory.read_append_right {m n : Memory} {a : Nat} (h : ∀ c ∈ n, c.1 ≠ a) :
    Memory.read (m ++ n) a = m.read a := by
  induction m with
  | nil => exact Memory.read_of_not_mem h
  | cons c m ih => rw [List.cons_append, Memory.read_cons, Memory.read_cons, ih]

/-- A fill leaves every cell outside its run alone, in any memory. -/
theorem Memory.read_fill_outside {m : Memory} {lo n : Nat} {v : Byte} {a : Nat}
    (h : a < lo ∨ lo + n ≤ a) : (m.fill lo n v).read a = m.read a := by
  have hrun : ∀ c ∈ Memory.run lo n v, c.1 ≠ a := fun c hc => by
    have := (Memory.mem_run.mp hc).2.1
    omega
  unfold Memory.fill
  rcases h with h | h
  · rw [Memory.read_append_right, Memory.read_append_right hrun, Memory.read_filter]
    · intro w
      simpa using h
    · intro c hc
      simp only [List.mem_filter, decide_eq_true_eq] at hc
      omega
  · rw [Memory.read_append_left, Memory.read_filter]
    · intro w
      simpa using h
    · intro c hc
      rcases List.mem_append.mp hc with hc | hc
      · simp only [List.mem_filter, decide_eq_true_eq] at hc
        omega
      · exact hrun c hc

/-- What a fill leaves: `v` in the run, every other cell as before (60_exceptions.md R155). -/
theorem Memory.read_fill {m : Memory} (hm : m.wf) {lo n : Nat} (h : lo + n ≤ MEM_SIZE) (v : Byte)
    (a : Nat) : (m.fill lo n v).read a = if lo ≤ a ∧ a < lo + n then v else m.read a := by
  have hw := Memory.fill_wf hm h v
  split
  · next ha =>
    by_cases hv : v = unlisted
    · rw [Memory.read_of_not_mem, hv]
      intro c hc
      rcases Memory.mem_fill.mp hc with ⟨-, hc⟩ | ⟨hv', -⟩
      · omega
      · exact absurd hv hv'
    · exact Memory.read_of_mem hw (c := (a, v)) (Memory.mem_fill.mpr (.inr ⟨hv, ha, rfl⟩))
  · next ha =>
    by_cases hr : m.read a = unlisted
    · rw [hr]
      refine Memory.read_of_not_mem fun c hc hca => ?_
      rcases Memory.mem_fill.mp hc with ⟨hc, -⟩ | ⟨-, hc, -⟩
      · have := Memory.read_of_mem hm hc
        rw [hca, hr] at this
        exact (hm.2 c hc).2 this.symm
      · omega
    · have := Memory.mem_of_read hr
      exact Memory.read_of_mem hw (c := (a, m.read a)) (Memory.mem_fill.mpr (.inl ⟨this, by
        show a < lo ∨ lo + n ≤ a
        omega⟩))

/-- The fill is the loop of 60_exceptions.md R155: one write after the other. -/
theorem Memory.fill_eq_writeAll {m : Memory} (hm : m.wf) {lo n : Nat} (h : lo + n ≤ MEM_SIZE)
    (v : Byte) : m.fill lo n v = m.writeAll lo (List.replicate n v) := by
  have hl : (List.replicate n v).length = n := List.length_replicate
  refine Memory.ext_of_read (Memory.fill_wf hm h v) (Memory.writeAll_wf hm (by omega)) fun a => ?_
  rw [Memory.read_fill hm h]
  split
  · next ha =>
    have := Memory.read_writeAll_inside hm (base := lo) (vs := List.replicate n v) (by omega)
      (k := a - lo) (by omega)
    rw [show lo + (a - lo) = a by omega] at this
    rw [this, List.getElem_replicate]
  · rw [Memory.read_writeAll_outside (by omega)]

/-- The second fill of a region decides: the first one leaves no trace. -/
theorem Memory.fill_fill (m : Memory) (lo n : Nat) (v w : Byte) :
    (m.fill lo n v).fill lo n w = m.fill lo n w := by
  have hb : (Memory.run lo n v).filter (fun c => c.1 < lo) = [] :=
    List.filter_eq_nil_iff.mpr fun c hc => by have := (Memory.mem_run.mp hc).2.1; simp; omega
  have ha : (Memory.run lo n v).filter (fun c => lo + n ≤ c.1) = [] :=
    List.filter_eq_nil_iff.mpr fun c hc => by have := (Memory.mem_run.mp hc).2.1; simp; omega
  have h1 : (m.filter fun c => decide (lo + n ≤ c.1)).filter (fun c => c.1 < lo) = [] :=
    List.filter_eq_nil_iff.mpr fun c hc => by have := (List.mem_filter.mp hc).2; simp at this ⊢; omega
  have h2 : (m.filter fun c => decide (c.1 < lo)).filter (fun c => lo + n ≤ c.1) = [] :=
    List.filter_eq_nil_iff.mpr fun c hc => by have := (List.mem_filter.mp hc).2; simp at this ⊢; omega
  unfold Memory.fill
  simp only [List.filter_append, hb, ha, h1, h2, List.append_nil, List.nil_append, List.filter_filter,
    Bool.and_self]

end Sys2Proof.Machine
end

