-- ==== Sys2Proof/Laws/State.lean ====
section
/-! SUPPORT. What each operation that updates a state as a whole does to each field: one lemma a field, true
by rfl, so that no later proof unfolds a record update. -/

namespace Sys2Proof.Machine

open Sys2Proof.Config

/-! ## takeFault -/

@[simp] theorem takeFault_pc (s : State) (op : Option Byte) (r : Raise) : (takeFault s op r).pc = s.pc := rfl
@[simp] theorem takeFault_ostack (s : State) (op : Option Byte) (r : Raise) : (takeFault s op r).ostack = s.ostack := rfl
@[simp] theorem takeFault_cstack (s : State) (op : Option Byte) (r : Raise) : (takeFault s op r).cstack = s.cstack := rfl
@[simp] theorem takeFault_flag (s : State) (op : Option Byte) (r : Raise) : (takeFault s op r).flag = s.flag := rfl
@[simp] theorem takeFault_wait (s : State) (op : Option Byte) (r : Raise) : (takeFault s op r).wait = s.wait := rfl
@[simp] theorem takeFault_halted (s : State) (op : Option Byte) (r : Raise) : (takeFault s op r).halted = true := rfl
@[simp] theorem takeFault_fault (s : State) (op : Option Byte) (r : Raise) : (takeFault s op r).fault = some ⟨r.cause, s.pc, op, r.addr⟩ := rfl
@[simp] theorem takeFault_mem (s : State) (op : Option Byte) (r : Raise) : (takeFault s op r).mem = s.mem := rfl
@[simp] theorem takeFault_viewport (s : State) (op : Option Byte) (r : Raise) : (takeFault s op r).viewport = s.viewport := rfl
@[simp] theorem takeFault_dirty (s : State) (op : Option Byte) (r : Raise) : (takeFault s op r).dirty = s.dirty := rfl
@[simp] theorem takeFault_arena (s : State) (op : Option Byte) (r : Raise) : (takeFault s op r).arena = s.arena := rfl
@[simp] theorem takeFault_used (s : State) (op : Option Byte) (r : Raise) : (takeFault s op r).used = s.used := rfl
@[simp] theorem takeFault_freel (s : State) (op : Option Byte) (r : Raise) : (takeFault s op r).freel = s.freel := rfl

/-! ## engineReset -/

@[simp] theorem engineReset_pc (s : State) : (engineReset s).pc = PROG_BASE := rfl
@[simp] theorem engineReset_ostack (s : State) : (engineReset s).ostack = [] := rfl
@[simp] theorem engineReset_cstack (s : State) : (engineReset s).cstack = [] := rfl
@[simp] theorem engineReset_flag (s : State) : (engineReset s).flag = .equal := rfl
@[simp] theorem engineReset_wait (s : State) : (engineReset s).wait = 0 := rfl
@[simp] theorem engineReset_halted (s : State) : (engineReset s).halted = false := rfl
@[simp] theorem engineReset_fault (s : State) : (engineReset s).fault = none := rfl
@[simp] theorem engineReset_mem (s : State) : (engineReset s).mem = s.mem := rfl
@[simp] theorem engineReset_viewport (s : State) : (engineReset s).viewport = s.viewport := rfl
@[simp] theorem engineReset_dirty (s : State) : (engineReset s).dirty = s.dirty := rfl
@[simp] theorem engineReset_arena (s : State) : (engineReset s).arena = s.arena := rfl
@[simp] theorem engineReset_used (s : State) : (engineReset s).used = s.used := rfl
@[simp] theorem engineReset_freel (s : State) : (engineReset s).freel = s.freel := rfl

/-! ## countDown -/

@[simp] theorem countDown_pc (s : State) : (countDown s).pc = s.pc := rfl
@[simp] theorem countDown_ostack (s : State) : (countDown s).ostack = s.ostack := rfl
@[simp] theorem countDown_cstack (s : State) : (countDown s).cstack = s.cstack := rfl
@[simp] theorem countDown_flag (s : State) : (countDown s).flag = s.flag := rfl
@[simp] theorem countDown_wait (s : State) : (countDown s).wait = s.wait - 1 := rfl
@[simp] theorem countDown_halted (s : State) : (countDown s).halted = s.halted := rfl
@[simp] theorem countDown_fault (s : State) : (countDown s).fault = s.fault := rfl
@[simp] theorem countDown_mem (s : State) : (countDown s).mem = s.mem := rfl
@[simp] theorem countDown_viewport (s : State) : (countDown s).viewport = s.viewport := rfl
@[simp] theorem countDown_dirty (s : State) : (countDown s).dirty = s.dirty := rfl
@[simp] theorem countDown_arena (s : State) : (countDown s).arena = s.arena := rfl
@[simp] theorem countDown_used (s : State) : (countDown s).used = s.used := rfl
@[simp] theorem countDown_freel (s : State) : (countDown s).freel = s.freel := rfl

/-! ## quit -/

@[simp] theorem quit_pc (s : State) : (quit s).pc = s.pc := rfl
@[simp] theorem quit_ostack (s : State) : (quit s).ostack = s.ostack := rfl
@[simp] theorem quit_cstack (s : State) : (quit s).cstack = s.cstack := rfl
@[simp] theorem quit_flag (s : State) : (quit s).flag = s.flag := rfl
@[simp] theorem quit_wait (s : State) : (quit s).wait = s.wait := rfl
@[simp] theorem quit_halted (s : State) : (quit s).halted = true := rfl
@[simp] theorem quit_fault (s : State) : (quit s).fault = s.fault := rfl
@[simp] theorem quit_mem (s : State) : (quit s).mem = s.mem := rfl
@[simp] theorem quit_viewport (s : State) : (quit s).viewport = s.viewport := rfl
@[simp] theorem quit_dirty (s : State) : (quit s).dirty = s.dirty := rfl
@[simp] theorem quit_arena (s : State) : (quit s).arena = s.arena := rfl
@[simp] theorem quit_used (s : State) : (quit s).used = s.used := rfl
@[simp] theorem quit_freel (s : State) : (quit s).freel = s.freel := rfl

/-! ## markPresented -/

@[simp] theorem markPresented_pc (s : State) : (markPresented s).pc = s.pc := rfl
@[simp] theorem markPresented_ostack (s : State) : (markPresented s).ostack = s.ostack := rfl
@[simp] theorem markPresented_cstack (s : State) : (markPresented s).cstack = s.cstack := rfl
@[simp] theorem markPresented_flag (s : State) : (markPresented s).flag = s.flag := rfl
@[simp] theorem markPresented_wait (s : State) : (markPresented s).wait = s.wait := rfl
@[simp] theorem markPresented_halted (s : State) : (markPresented s).halted = s.halted := rfl
@[simp] theorem markPresented_fault (s : State) : (markPresented s).fault = s.fault := rfl
@[simp] theorem markPresented_mem (s : State) : (markPresented s).mem = s.mem := rfl
@[simp] theorem markPresented_viewport (s : State) : (markPresented s).viewport = s.viewport := rfl
@[simp] theorem markPresented_dirty (s : State) : (markPresented s).dirty = false := rfl
@[simp] theorem markPresented_arena (s : State) : (markPresented s).arena = s.arena := rfl
@[simp] theorem markPresented_used (s : State) : (markPresented s).used = s.used := rfl
@[simp] theorem markPresented_freel (s : State) : (markPresented s).freel = s.freel := rfl

/-! ## setViewport -/

@[simp] theorem setViewport_pc (x y w h : Nat) (s : State) : (setViewport x y w h s).pc = s.pc := rfl
@[simp] theorem setViewport_ostack (x y w h : Nat) (s : State) : (setViewport x y w h s).ostack = s.ostack := rfl
@[simp] theorem setViewport_cstack (x y w h : Nat) (s : State) : (setViewport x y w h s).cstack = s.cstack := rfl
@[simp] theorem setViewport_flag (x y w h : Nat) (s : State) : (setViewport x y w h s).flag = s.flag := rfl
@[simp] theorem setViewport_wait (x y w h : Nat) (s : State) : (setViewport x y w h s).wait = s.wait := rfl
@[simp] theorem setViewport_halted (x y w h : Nat) (s : State) : (setViewport x y w h s).halted = s.halted := rfl
@[simp] theorem setViewport_fault (x y w h : Nat) (s : State) : (setViewport x y w h s).fault = s.fault := rfl
@[simp] theorem setViewport_mem (x y w h : Nat) (s : State) : (setViewport x y w h s).mem = s.mem := rfl
@[simp] theorem setViewport_viewport (x y w h : Nat) (s : State) : (setViewport x y w h s).viewport = ⟨x, y, w, h⟩ := rfl
@[simp] theorem setViewport_dirty (x y w h : Nat) (s : State) : (setViewport x y w h s).dirty = s.dirty := rfl
@[simp] theorem setViewport_arena (x y w h : Nat) (s : State) : (setViewport x y w h s).arena = s.arena := rfl
@[simp] theorem setViewport_used (x y w h : Nat) (s : State) : (setViewport x y w h s).used = s.used := rfl
@[simp] theorem setViewport_freel (x y w h : Nat) (s : State) : (setViewport x y w h s).freel = s.freel := rfl

/-! ## resetViewport -/

@[simp] theorem resetViewport_pc (s : State) : (resetViewport s).pc = s.pc := rfl
@[simp] theorem resetViewport_ostack (s : State) : (resetViewport s).ostack = s.ostack := rfl
@[simp] theorem resetViewport_cstack (s : State) : (resetViewport s).cstack = s.cstack := rfl
@[simp] theorem resetViewport_flag (s : State) : (resetViewport s).flag = s.flag := rfl
@[simp] theorem resetViewport_wait (s : State) : (resetViewport s).wait = s.wait := rfl
@[simp] theorem resetViewport_halted (s : State) : (resetViewport s).halted = s.halted := rfl
@[simp] theorem resetViewport_fault (s : State) : (resetViewport s).fault = s.fault := rfl
@[simp] theorem resetViewport_mem (s : State) : (resetViewport s).mem = s.mem := rfl
@[simp] theorem resetViewport_viewport (s : State) : (resetViewport s).viewport = fullViewport := rfl
@[simp] theorem resetViewport_dirty (s : State) : (resetViewport s).dirty = s.dirty := rfl
@[simp] theorem resetViewport_arena (s : State) : (resetViewport s).arena = s.arena := rfl
@[simp] theorem resetViewport_used (s : State) : (resetViewport s).used = s.used := rfl
@[simp] theorem resetViewport_freel (s : State) : (resetViewport s).freel = s.freel := rfl

/-! ## surfClear -/

@[simp] theorem surfClear_pc (c : Byte) (s : State) : (surfClear c s).pc = s.pc := rfl
@[simp] theorem surfClear_ostack (c : Byte) (s : State) : (surfClear c s).ostack = s.ostack := rfl
@[simp] theorem surfClear_cstack (c : Byte) (s : State) : (surfClear c s).cstack = s.cstack := rfl
@[simp] theorem surfClear_flag (c : Byte) (s : State) : (surfClear c s).flag = s.flag := rfl
@[simp] theorem surfClear_wait (c : Byte) (s : State) : (surfClear c s).wait = s.wait := rfl
@[simp] theorem surfClear_halted (c : Byte) (s : State) : (surfClear c s).halted = s.halted := rfl
@[simp] theorem surfClear_fault (c : Byte) (s : State) : (surfClear c s).fault = s.fault := rfl
@[simp] theorem surfClear_mem (c : Byte) (s : State) : (surfClear c s).mem = s.mem.fill VIDEO_BASE VIDEO_SIZE c := rfl
@[simp] theorem surfClear_viewport (c : Byte) (s : State) : (surfClear c s).viewport = s.viewport := rfl
@[simp] theorem surfClear_dirty (c : Byte) (s : State) : (surfClear c s).dirty = true := rfl
@[simp] theorem surfClear_arena (c : Byte) (s : State) : (surfClear c s).arena = s.arena := rfl
@[simp] theorem surfClear_used (c : Byte) (s : State) : (surfClear c s).used = s.used := rfl
@[simp] theorem surfClear_freel (c : Byte) (s : State) : (surfClear c s).freel = s.freel := rfl

/-! ## surfPut -/

@[simp] theorem surfPut_pc (x y : Nat) (c : Byte) (s : State) : (surfPut x y c s).pc = s.pc := rfl
@[simp] theorem surfPut_ostack (x y : Nat) (c : Byte) (s : State) : (surfPut x y c s).ostack = s.ostack := rfl
@[simp] theorem surfPut_cstack (x y : Nat) (c : Byte) (s : State) : (surfPut x y c s).cstack = s.cstack := rfl
@[simp] theorem surfPut_flag (x y : Nat) (c : Byte) (s : State) : (surfPut x y c s).flag = s.flag := rfl
@[simp] theorem surfPut_wait (x y : Nat) (c : Byte) (s : State) : (surfPut x y c s).wait = s.wait := rfl
@[simp] theorem surfPut_halted (x y : Nat) (c : Byte) (s : State) : (surfPut x y c s).halted = s.halted := rfl
@[simp] theorem surfPut_fault (x y : Nat) (c : Byte) (s : State) : (surfPut x y c s).fault = s.fault := rfl
@[simp] theorem surfPut_mem (x y : Nat) (c : Byte) (s : State) : (surfPut x y c s).mem = drawPixel s.viewport x y c s.mem := rfl
@[simp] theorem surfPut_viewport (x y : Nat) (c : Byte) (s : State) : (surfPut x y c s).viewport = s.viewport := rfl
@[simp] theorem surfPut_dirty (x y : Nat) (c : Byte) (s : State) : (surfPut x y c s).dirty = true := rfl
@[simp] theorem surfPut_arena (x y : Nat) (c : Byte) (s : State) : (surfPut x y c s).arena = s.arena := rfl
@[simp] theorem surfPut_used (x y : Nat) (c : Byte) (s : State) : (surfPut x y c s).used = s.used := rfl
@[simp] theorem surfPut_freel (x y : Nat) (c : Byte) (s : State) : (surfPut x y c s).freel = s.freel := rfl

/-! ## loadImage -/

@[simp] theorem loadImage_pc (im : Image) (s : State) : (loadImage im s).pc = PROG_BASE := rfl
@[simp] theorem loadImage_ostack (im : Image) (s : State) : (loadImage im s).ostack = [] := rfl
@[simp] theorem loadImage_cstack (im : Image) (s : State) : (loadImage im s).cstack = [] := rfl
@[simp] theorem loadImage_flag (im : Image) (s : State) : (loadImage im s).flag = .equal := rfl
@[simp] theorem loadImage_wait (im : Image) (s : State) : (loadImage im s).wait = 0 := rfl
@[simp] theorem loadImage_halted (im : Image) (s : State) : (loadImage im s).halted = false := rfl
@[simp] theorem loadImage_fault (im : Image) (s : State) : (loadImage im s).fault = none := rfl
@[simp] theorem loadImage_mem (im : Image) (s : State) : (loadImage im s).mem = writeData (s.mem.writeAll PROG_BASE im.prog) im.data := rfl
@[simp] theorem loadImage_viewport (im : Image) (s : State) : (loadImage im s).viewport = s.viewport := rfl
@[simp] theorem loadImage_dirty (im : Image) (s : State) : (loadImage im s).dirty = s.dirty := rfl
@[simp] theorem loadImage_arena (im : Image) (s : State) : (loadImage im s).arena = im.nlet := rfl
@[simp] theorem loadImage_used (im : Image) (s : State) : (loadImage im s).used = [] := rfl
@[simp] theorem loadImage_freel (im : Image) (s : State) : (loadImage im s).freel = [] := rfl

end Sys2Proof.Machine
end

