-- ==== Sys2Proof/Laws/Ops.lean ====
section
/-! SUPPORT. One spec lemma per shared operation: all it can do, so that no later proof unfolds it. -/

namespace Sys2Proof.Machine

open Sys2Proof.Config

/-- The canonical form holds of the memory after power-on, which lists nothing. -/
theorem reset_mem_wf : State.reset.mem.wf := by decide

/-! ## Memory accesses (20_memory.md R37-R39) -/

/-- A one-cell data access cannot leave the data region (20_memory.md R38). -/
theorem dataOffset_lt (d : Byte) : dataOffset d < 256 := d.isLt

theorem memRead_of_lt {s : State} {a : Nat} (h : a < MEM_SIZE) : memRead s a = .ok (s.mem.read a) :=
  if_pos h

theorem dataRead_of_lt {s : State} {off : Nat} (h : off < DATA_SIZE) :
    dataRead s off = .ok (s.mem.read (dataAddr off)) := by
  unfold dataRead
  rw [if_pos h]
  exact memRead_of_lt (by have := layout; unfold dataAddr; omega)

theorem dataWrite_of_lt {s : State} {off : Nat} (h : off < DATA_SIZE) (v : Byte) :
    dataWrite s off v = .ok { s with mem := s.mem.write (dataAddr off) v } := by
  unfold dataWrite
  rw [if_pos h]
  exact if_pos (by have := layout; unfold dataAddr; omega)

@[simp] theorem dataRead_operand (s : State) (d : Byte) :
    dataRead s (dataOffset d) = .ok (s.mem.read (dataAddr (dataOffset d))) :=
  dataRead_of_lt (by have := dataOffset_lt d; have := layout; omega)

@[simp] theorem dataWrite_operand (s : State) (d v : Byte) :
    dataWrite s (dataOffset d) v = .ok { s with mem := s.mem.write (dataAddr (dataOffset d)) v } :=
  dataWrite_of_lt (by have := dataOffset_lt d; have := layout; omega) v

theorem progRead_of_lt {s : State} {a : Nat} (h : a < PROG_SIZE) :
    progRead s a = .ok (s.mem.read a) := by
  unfold progRead
  have := layout
  rw [if_pos ⟨Nat.zero_le _, by omega⟩]
  exact memRead_of_lt (by omega)

theorem progRead_of_ge {s : State} {a : Nat} (h : PROG_SIZE ≤ a) : progRead s a = boundary a := by
  unfold progRead
  have := layout
  rw [if_neg (by omega)]

theorem fetchByte_of_lt {s : State} (h : s.pc < PROG_SIZE) :
    fetchByte s = .ok (s.mem.read s.pc, { s with pc := s.pc + 1 }) := by
  unfold fetchByte
  rw [progRead_of_lt h]
  rfl

theorem fetchByte_of_ge {s : State} (h : PROG_SIZE ≤ s.pc) : fetchByte s = boundary s.pc := by
  unfold fetchByte
  rw [progRead_of_ge h]
  rfl

/-! ## Values and the operand stack (40_cycle.md R87, R89) -/

@[simp] theorem unpack_eq (s : State) (v : Value) : unpack s v = .ok (v.numberIn s.mem) := by
  cases v with
  | lit n => rfl
  | mem a => exact dataRead_operand s a

@[simp] theorem numberIn_lit (m : Memory) (n : Byte) : (Value.lit n).numberIn m = n := rfl

theorem pop_eq {s : State} {v : Value} {rest : List Value} (h : s.ostack = v :: rest) :
    pop s = .ok (v, { s with ostack := rest }) := by
  unfold pop
  rw [h]

theorem pop_empty {s : State} (h : s.ostack = []) : pop s = raise .stackUnderflow := by
  unfold pop
  rw [h]

/-- All a pop can do when it answers. -/
theorem pop_ok {s t : State} {v : Value} (h : pop s = .ok (v, t)) :
    ∃ rest, s.ostack = v :: rest ∧ t = { s with ostack := rest } := by
  unfold pop at h
  split at h
  · cases h
  · next w rest hs => cases h; exact ⟨rest, hs, rfl⟩

theorem push_eq {s : State} (h : s.ostack.length ≠ STACK_CAP) (v : Value) :
    push v s = .ok { s with ostack := v :: s.ostack } := if_neg h

/-- All a push can do when it answers. -/
theorem push_ok {s t : State} {v : Value} (h : push v s = .ok t) :
    s.ostack.length ≠ STACK_CAP ∧ t = { s with ostack := v :: s.ostack } := by
  unfold push at h
  split at h
  · cases h
  · next hs => cases h; exact ⟨hs, rfl⟩

/-! ## Binds of fallible lines -/

/-- A sequence of lines answers exactly when each of them does. -/
theorem bind_ok {α β : Type} {x : Res α} {f : α → Res β} {b : β} :
    x >>= f = .ok b ↔ ∃ a, x = .ok a ∧ f a = .ok b := by
  cases x with
  | error r => exact ⟨fun h => (nomatch h), fun ⟨_, h, _⟩ => (nomatch h)⟩
  | ok a => exact ⟨fun h => ⟨a, rfl, h⟩, fun ⟨_, h, h'⟩ => by cases h; exact h'⟩

@[simp] theorem ok_bind {α β : Type} (a : α) (f : α → Res β) : (Except.ok a : Res α) >>= f = f a := rfl

@[simp] theorem error_bind {α β : Type} (r : Raise) (f : α → Res β) :
    (Except.error r : Res α) >>= f = .error r := rfl

@[simp] theorem pure_ok {α : Type} (a : α) : (pure a : Res α) = .ok a := rfl

/-! ## Running an instruction (40_cycle.md R82, 60_exceptions.md R145) -/

theorem runInstr_ok {i : Instr} {s t : State} {body : State → Res State}
    (h : body { s with pc := s.pc + i.length } = .ok t) : runInstr i s body = .next t := by
  unfold runInstr
  rw [h]

theorem runInstr_error {i : Instr} {s : State} {body : State → Res State} {r : Raise}
    (h : body { s with pc := s.pc + i.length } = .error r) :
    runInstr i s body = .next (takeFault s (some i.opcode) r) := by
  unfold runInstr
  rw [h]

/-- All an instruction can do: its body's state, or the fault its body raises, taken at the start of the
tick. -/
theorem runInstr_cases {i : Instr} {s t : State} {body : State → Res State}
    (h : runInstr i s body = .next t) :
    body { s with pc := s.pc + i.length } = .ok t ∨
      ∃ r, body { s with pc := s.pc + i.length } = .error r ∧ t = takeFault s (some i.opcode) r := by
  unfold runInstr at h
  split at h
  · next u hu => cases h; exact .inl hu
  · next r hr => cases h; exact .inr ⟨r, hr, rfl⟩

/-- Every instruction ends in a next state: a fault of the machine is a state too (60_exceptions.md R145). -/
theorem runInstr_next (i : Instr) (s : State) (body : State → Res State) :
    ∃ t, runInstr i s body = .next t := by
  unfold runInstr
  split <;> exact ⟨_, rfl⟩

theorem exec_next (i : Instr) (s : State) : ∃ t, exec i s = .next t := by
  cases i <;>
    simp only [exec, execHalt, execPush, execPushm, execPop, execWait, execAdd, execSub, execMul, execDiv,
      execAnd, execOr, execXor, execAddm, execSubm, execMulm, execDivm, execAndm, execOrm,
      execXorm, execLsh, execRsh, execLshm, execRshm, execNot, execNotm, execInc, execDec,
      execCmp, execCmpm, execJmp, execJeq, execJne, execJgt, execJlt, execJge, execJle,
      execCall, execRet, execPutp, execPutpm, execPuts, execSys, execNop, execIllegal] <;>
    exact runInstr_next _ _ _

/-- The machine never stops outside its own fault state. -/
theorem tick_next (s : State) : ∃ t, tick s = .next t := by
  unfold tick
  split
  · exact ⟨_, rfl⟩
  · split
    · exact ⟨_, rfl⟩
    · unfold tickInstr
      split
      · exact exec_next _ _
      · exact ⟨_, rfl⟩

/-! ## Shared shapes of the arithmetic family (40_cycle.md R90, 42_alu.md R97, R105, R113, R114) -/

theorem popTwo_eq {s : State} {a b : Value} {rest : List Value} (h : s.ostack = b :: a :: rest) :
    popTwo s = .ok (a, b, { s with ostack := rest }) := by
  unfold popTwo
  rw [pop_eq h]
  rfl

theorem popTwo_ok {s t : State} {a b : Value} (h : popTwo s = .ok (a, b, t)) :
    ∃ rest, s.ostack = b :: a :: rest ∧ t = { s with ostack := rest } := by
  unfold popTwo at h
  obtain ⟨⟨v, u⟩, hv, h⟩ := bind_ok.mp h
  obtain ⟨⟨w, u'⟩, hw, h⟩ := bind_ok.mp h
  cases h
  obtain ⟨r1, h1, rfl⟩ := pop_ok hv
  obtain ⟨r2, h2, rfl⟩ := pop_ok hw
  exact ⟨r2, by rw [h1]; exact congrArg _ h2, rfl⟩

theorem binary_eq {s : State} {op : Byte → Byte → Res Byte} {a b : Value} {rest : List Value}
    {r : Byte} (h : s.ostack = b :: a :: rest) (hr : op (a.numberIn s.mem) (b.numberIn s.mem) = .ok r) :
    binary op s = .ok (r, { s with ostack := rest }) := by
  unfold binary
  rw [popTwo_eq h]
  simp [hr]

theorem binary_ok {s t : State} {op : Byte → Byte → Res Byte} {r : Byte}
    (h : binary op s = .ok (r, t)) :
    ∃ a b rest, s.ostack = b :: a :: rest ∧ op (a.numberIn s.mem) (b.numberIn s.mem) = .ok r ∧
      t = { s with ostack := rest } := by
  unfold binary at h
  obtain ⟨⟨a, b, u⟩, hp, h⟩ := bind_ok.mp h
  obtain ⟨rest, hs, rfl⟩ := popTwo_ok hp
  simp only [unpack_eq, ok_bind] at h
  obtain ⟨r', hr, h⟩ := bind_ok.mp h
  cases h
  exact ⟨a, b, rest, hs, hr, rfl⟩

theorem binaryStack_eq {s : State} {op : Byte → Byte → Res Byte} {a b : Value} {rest : List Value}
    {r : Byte} (h : s.ostack = b :: a :: rest) (hr : op (a.numberIn s.mem) (b.numberIn s.mem) = .ok r)
    (hl : rest.length ≠ STACK_CAP) :
    binaryStack op s = .ok { s with ostack := .lit r :: rest } := by
  unfold binaryStack
  rw [binary_eq h hr]
  exact push_eq hl _

theorem binaryStack_ok {s t : State} {op : Byte → Byte → Res Byte} (h : binaryStack op s = .ok t) :
    ∃ a b rest r, s.ostack = b :: a :: rest ∧ op (a.numberIn s.mem) (b.numberIn s.mem) = .ok r ∧
      t = { s with ostack := .lit r :: rest } := by
  unfold binaryStack at h
  obtain ⟨⟨r, u⟩, hb, h⟩ := bind_ok.mp h
  obtain ⟨a, b, rest, hs, hr, rfl⟩ := binary_ok hb
  obtain ⟨-, rfl⟩ := push_ok h
  exact ⟨a, b, rest, r, hs, hr, rfl⟩

theorem binaryMem_eq {s : State} {op : Byte → Byte → Res Byte} {d : Byte} {a b : Value}
    {rest : List Value} {r : Byte} (h : s.ostack = b :: a :: rest)
    (hr : op (a.numberIn s.mem) (b.numberIn s.mem) = .ok r) :
    binaryMem op d s =
      .ok { s with ostack := rest, mem := s.mem.write (dataAddr (dataOffset d)) r } := by
  unfold binaryMem
  rw [binary_eq h hr]
  simp

theorem binaryMem_ok {s t : State} {op : Byte → Byte → Res Byte} {d : Byte}
    (h : binaryMem op d s = .ok t) :
    ∃ a b rest r, s.ostack = b :: a :: rest ∧ op (a.numberIn s.mem) (b.numberIn s.mem) = .ok r ∧
      t = { s with ostack := rest, mem := s.mem.write (dataAddr (dataOffset d)) r } := by
  unfold binaryMem at h
  obtain ⟨⟨r, u⟩, hb, h⟩ := bind_ok.mp h
  obtain ⟨a, b, rest, hs, hr, rfl⟩ := binary_ok hb
  simp only [dataWrite_operand] at h
  cases h
  exact ⟨a, b, rest, r, hs, hr, rfl⟩

theorem shifted_eq {s : State} {op : Byte → Byte → Byte} {a b : Value} {rest : List Value}
    (h : s.ostack = b :: a :: rest) :
    shifted op s =
      .ok (a.retag (op a.payload (b.numberIn s.mem)), { s with ostack := rest }) := by
  unfold shifted
  rw [popTwo_eq h]
  simp

theorem shifted_ok {s t : State} {op : Byte → Byte → Byte} {v : Value}
    (h : shifted op s = .ok (v, t)) :
    ∃ a b rest, s.ostack = b :: a :: rest ∧ v = a.retag (op a.payload (b.numberIn s.mem)) ∧
      t = { s with ostack := rest } := by
  unfold shifted at h
  obtain ⟨⟨a, b, u⟩, hp, h⟩ := bind_ok.mp h
  obtain ⟨rest, hs, rfl⟩ := popTwo_ok hp
  simp only [unpack_eq, ok_bind] at h
  cases h
  exact ⟨a, b, rest, hs, rfl, rfl⟩

theorem complemented_eq {s : State} {a : Value} {rest : List Value} (h : s.ostack = a :: rest) :
    complemented s = .ok (a.retag (aluNot a.payload), { s with ostack := rest }) := by
  unfold complemented
  rw [pop_eq h]
  rfl

theorem complemented_ok {s t : State} {v : Value} (h : complemented s = .ok (v, t)) :
    ∃ a rest, s.ostack = a :: rest ∧ v = a.retag (aluNot a.payload) ∧ t = { s with ostack := rest } := by
  unfold complemented at h
  obtain ⟨⟨a, u⟩, hp, h⟩ := bind_ok.mp h
  obtain ⟨rest, hs, rfl⟩ := pop_ok hp
  cases h
  exact ⟨a, rest, hs, rfl, rfl⟩

theorem pushResult_eq {v : Value} {s : State} (h : s.ostack.length ≠ STACK_CAP) :
    pushResult (.ok (v, s)) = .ok { s with ostack := v :: s.ostack } := push_eq h v

theorem pushResult_ok {x : Res (Value × State)} {t : State} (h : pushResult x = .ok t) :
    ∃ v u, x = .ok (v, u) ∧ u.ostack.length ≠ STACK_CAP ∧ t = { u with ostack := v :: u.ostack } := by
  unfold pushResult at h
  obtain ⟨⟨v, u⟩, hx, h⟩ := bind_ok.mp h
  exact ⟨v, u, hx, push_ok h⟩

theorem storeResult_eq (d : Byte) (v : Value) (s : State) :
    storeResult d (.ok (v, s)) =
      .ok { s with mem := s.mem.write (dataAddr (dataOffset d)) (v.numberIn s.mem) } := by
  unfold storeResult
  simp

theorem storeResult_ok {d : Byte} {x : Res (Value × State)} {t : State} (h : storeResult d x = .ok t) :
    ∃ v u, x = .ok (v, u) ∧
      t = { u with mem := u.mem.write (dataAddr (dataOffset d)) (v.numberIn u.mem) } := by
  unfold storeResult at h
  obtain ⟨⟨v, u⟩, hx, h⟩ := bind_ok.mp h
  simp only [unpack_eq, ok_bind, dataWrite_operand] at h
  cases h
  exact ⟨v, u, hx, rfl⟩

@[simp] theorem updateCell_eq (f : Byte → Byte) (d : Byte) (s : State) :
    updateCell f d s =
      .ok { s with
        mem := s.mem.write (dataAddr (dataOffset d)) (f (s.mem.read (dataAddr (dataOffset d)))) } := by
  unfold updateCell
  simp

theorem popToMem_eq {s : State} {v : Value} {rest : List Value} (d : Byte)
    (h : s.ostack = v :: rest) :
    popToMem d s =
      .ok { s with
        ostack := rest, mem := s.mem.write (dataAddr (dataOffset d)) (v.numberIn s.mem) } := by
  unfold popToMem
  rw [pop_eq h]
  simp

theorem popToMem_ok {s t : State} {d : Byte} (h : popToMem d s = .ok t) :
    ∃ v rest, s.ostack = v :: rest ∧
      t = { s with
        ostack := rest, mem := s.mem.write (dataAddr (dataOffset d)) (v.numberIn s.mem) } := by
  unfold popToMem at h
  obtain ⟨⟨v, u⟩, hp, h⟩ := bind_ok.mp h
  obtain ⟨rest, hs, rfl⟩ := pop_ok hp
  simp only [unpack_eq, ok_bind, dataWrite_operand] at h
  cases h
  exact ⟨v, rest, hs, rfl⟩

/-! ## The draw family (44_system.md R139-R143) -/

theorem popXY_eq {s : State} {vx vy : Value} {rest : List Value} (h : s.ostack = vx :: vy :: rest) :
    popXY s = .ok (vx.numberIn s.mem, vy.numberIn s.mem, { s with ostack := rest }) := by
  unfold popXY
  rw [pop_eq h]
  simp [pop]

theorem popXY_ok {s t : State} {x y : Byte} (h : popXY s = .ok (x, y, t)) :
    ∃ vx vy rest, s.ostack = vx :: vy :: rest ∧ x = vx.numberIn s.mem ∧ y = vy.numberIn s.mem ∧
      t = { s with ostack := rest } := by
  unfold popXY at h
  obtain ⟨⟨vx, u⟩, hp, h⟩ := bind_ok.mp h
  obtain ⟨⟨vy, u'⟩, hq, h⟩ := bind_ok.mp h
  obtain ⟨r1, h1, rfl⟩ := pop_ok hp
  obtain ⟨r2, h2, rfl⟩ := pop_ok hq
  simp only [unpack_eq, ok_bind] at h
  cases h
  exact ⟨vx, vy, r2, by rw [h1]; exact congrArg _ h2, rfl, rfl, rfl⟩

theorem popOptional_empty {s : State} (h : s.ostack = []) : popOptional s = .ok (0, s) := by
  unfold popOptional isEmpty
  rw [h]
  rfl

theorem popOptional_cons {s : State} {v : Value} {rest : List Value} (h : s.ostack = v :: rest) :
    popOptional s = .ok (v.numberIn s.mem, { s with ostack := rest }) := by
  unfold popOptional isEmpty
  rw [pop_eq h, h]
  simp

/-- An optional pop always answers. -/
theorem popOptional_ok {s t : State} {n : Byte} (h : popOptional s = .ok (n, t)) :
    (s.ostack = [] ∧ n = 0 ∧ t = s) ∨
      ∃ v rest, s.ostack = v :: rest ∧ n = v.numberIn s.mem ∧ t = { s with ostack := rest } := by
  cases hs : s.ostack with
  | nil => rw [popOptional_empty hs] at h; cases h; exact .inl ⟨rfl, rfl, rfl⟩
  | cons v rest =>
    rw [popOptional_cons hs] at h
    cases h
    exact .inr ⟨v, rest, rfl, rfl, rfl⟩

/-- All a blit can do when it answers: 64 guarded writes. -/
theorem surfBlit_ok {x y : Nat} {off f : Byte} {s t : State} (h : surfBlit x y off f s = .ok t) :
    frameBase off f + 63 < DATA_SIZE ∧
      t = { s with
        mem := (List.range FRAME_CELLS).foldl (blitPixel s.viewport x y (frameBase off f)) s.mem
        dirty := true } := by
  unfold surfBlit at h
  simp only at h
  split at h
  · cases h
  · next hb => cases h; exact ⟨by have := layout; omega, rfl⟩

theorem surfBlit_eq {x y : Nat} {off f : Byte} {s : State} (h : frameBase off f + 63 < DATA_SIZE) :
    surfBlit x y off f s = .ok
      { s with
        mem := (List.range FRAME_CELLS).foldl (blitPixel s.viewport x y (frameBase off f)) s.mem
        dirty := true } := by
  unfold surfBlit
  exact if_neg (by have := layout; omega)

theorem inClip_bounds {v : Viewport} {x y : Nat} (h : inClip v x y = true) :
    x < VIDEO_W ∧ y < VIDEO_H := by
  unfold inClip at h
  have := of_decide_eq_true h
  omega

/-- A drawn pixel is a cell of the video region (20_memory.md R40). -/
theorem pixelAddr_in_video {x y : Nat} (hx : x < VIDEO_W) (hy : y < VIDEO_H) :
    VIDEO_BASE ≤ pixelAddr x y ∧ pixelAddr x y < VIDEO_BASE + VIDEO_SIZE := by
  simp only [pixelAddr, VIDEO_W] at *
  have := layout
  omega

/-- Pixels of the screen have distinct cells. -/
theorem pixelAddr_inj {x y x' y' : Nat} (hx : x < VIDEO_W) (hx' : x' < VIDEO_W)
    (h : pixelAddr x y = pixelAddr x' y') : x = x' ∧ y = y' := by
  simp only [pixelAddr, VIDEO_W] at *
  omega

theorem drawPixel_wf {m : Memory} (hm : m.wf) (v : Viewport) (x y : Nat) (c : Byte) :
    (drawPixel v x y c m).wf := by
  unfold drawPixel
  split
  · next h =>
    obtain ⟨hx, hy⟩ := inClip_bounds h
    have := pixelAddr_in_video hx hy
    exact Memory.write_wf hm (by have := layout; omega) c
  · exact hm

/-- A drawn pixel writes no cell outside the video region. -/
theorem read_drawPixel_outside {v : Viewport} {x y : Nat} {c : Byte} {m : Memory} {a : Nat}
    (h : a < VIDEO_BASE ∨ VIDEO_BASE + VIDEO_SIZE ≤ a) : (drawPixel v x y c m).read a = m.read a := by
  unfold drawPixel
  split
  · next hc =>
    obtain ⟨hx, hy⟩ := inClip_bounds hc
    have := pixelAddr_in_video hx hy
    exact Memory.read_write_other c (by omega) m
  · rfl

theorem foldl_blitPixel_wf {m : Memory} (hm : m.wf) (v : Viewport) (x y base : Nat) (ks : List Nat) :
    (ks.foldl (blitPixel v x y base) m).wf := by
  induction ks generalizing m with
  | nil => exact hm
  | cons k ks ih => exact ih (drawPixel_wf hm _ _ _ _)

theorem read_foldl_blitPixel_outside {v : Viewport} {x y base : Nat} {ks : List Nat} {m : Memory}
    {a : Nat} (h : a < VIDEO_BASE ∨ VIDEO_BASE + VIDEO_SIZE ≤ a) :
    (ks.foldl (blitPixel v x y base) m).read a = m.read a := by
  induction ks generalizing m with
  | nil => rfl
  | cons k ks ih => rw [List.foldl_cons, ih]; exact read_drawPixel_outside h

/-- What a pixel of the screen reads as after the first `n` pixels of a block are drawn: its source cell if
it is one of them and inside the clip (60_exceptions.md R157). -/
theorem read_foldl_blitPixel {v : Viewport} {x y base : Nat} (hb : base + 63 < DATA_SIZE) {m : Memory}
    (hm : m.wf) {n : Nat} (hn : n ≤ 64) {px py : Nat} (hpx : px < 128) (hpy : py < 128) :
    ((List.range n).foldl (blitPixel v x y base) m).read (pixelAddr px py) =
      if (x ≤ px ∧ px < x + 8 ∧ y ≤ py ∧ 8 * (py - y) + (px - x) < n) ∧ inClip v px py = true
      then m.read (dataAddr (base + (8 * (py - y) + (px - x)))) else m.read (pixelAddr px py) := by
  have hl := layout
  induction n with
  | zero => rw [if_neg (by omega)]; rfl
  | succ n ih =>
    rw [List.range_succ, List.foldl_append, List.foldl_cons, List.foldl_nil]
    have hw : Memory.wf ((List.range n).foldl (blitPixel v x y base) m) := foldl_blitPixel_wf hm _ _ _ _ _
    have hsrc : Memory.read ((List.range n).foldl (blitPixel v x y base) m) (dataAddr (base + n)) =
        m.read (dataAddr (base + n)) :=
      read_foldl_blitPixel_outside (.inr (by unfold dataAddr; omega))
    have hx : n % BLIT_W = n % 8 := rfl
    have hy : n / BLIT_W = n / 8 := rfl
    have other (he : ¬(px = x + n % 8 ∧ py = y + n / 8)) :
        (x ≤ px ∧ px < x + 8 ∧ y ≤ py ∧ 8 * (py - y) + (px - x) < n) ↔
          (x ≤ px ∧ px < x + 8 ∧ y ≤ py ∧ 8 * (py - y) + (px - x) < n + 1) := by omega
    unfold blitPixel drawPixel at *
    rw [hsrc, hx, hy]
    by_cases hc : inClip v (x + n % 8) (y + n / 8) = true
    · rw [if_pos hc, Memory.read_write hw]
      by_cases he : px = x + n % 8 ∧ py = y + n / 8
      · obtain ⟨rfl, rfl⟩ := he
        rw [if_pos rfl, if_pos ⟨by omega, hc⟩]
        congr 3
        omega
      · rw [if_neg fun h => he (pixelAddr_inj hpx (inClip_bounds hc).1 h), ih (by omega)]
        simp only [other he]
    · rw [if_neg hc, ih (by omega)]
      by_cases he : px = x + n % 8 ∧ py = y + n / 8
      · obtain ⟨rfl, rfl⟩ := he
        rw [if_neg fun h => hc h.2, if_neg fun h => hc h.2]
      · simp only [other he]

end Sys2Proof.Machine
end

