-- ==== Sys2Proof/Laws/Fetch.lean ====
section
/-! SUPPORT. All that fetching an instruction can answer (40_cycle.md R84-R86). -/

namespace Sys2Proof.Machine

open Sys2Proof.Config

theorem copy_length (m : Memory) (lo n : Nat) : (m.copy lo n).length = n := by
  simp [Memory.copy]

theorem copy_getElem? {m : Memory} {lo n k : Nat} (h : k < n) :
    (m.copy lo n)[k]? = some (m.read (lo + k)) := by
  simp [Memory.copy, h]

theorem copy_succ (m : Memory) (lo n : Nat) :
    m.copy lo (n + 1) = m.read lo :: m.copy (lo + 1) n := rfl

/-- When the cells at `pc`, all inside the program region, decode to `i`, the fetch answers `i`. -/
theorem fetchInstr_of_decode {s : State} {n : Nat} {i : Instr} (hn : s.pc + n ≤ PROG_SIZE)
    (hd : decode (s.mem.copy s.pc n) = .ok (i, [])) : fetchInstr s = .ok i := by
  cases n with
  | zero => exact nomatch hd
  | succ n =>
    unfold fetchInstr
    rw [fetchByte_of_lt (by omega)]
    rw [copy_succ] at hd
    rcases decode_ok hd with ⟨hs, -⟩ | ⟨k, b, hs, rfl, hb⟩ | ⟨k, b, c, hs, rfl, hb⟩ <;> simp only [hs]
    · have hl := congrArg List.length hb
      rw [copy_length] at hl
      obtain rfl : n = 1 := hl
      rw [fetchByte_of_lt (s := { s with pc := s.pc + 1 }) (by show s.pc + 1 < PROG_SIZE; omega)]
      cases hb
      rfl
    · have hl := congrArg List.length hb
      rw [copy_length] at hl
      obtain rfl : n = 2 := hl
      rw [fetchByte_of_lt (s := { s with pc := s.pc + 1 }) (by show s.pc + 1 < PROG_SIZE; omega)]
      simp only
      rw [fetchByte_of_lt (s := { s with pc := s.pc + 1 + 1 })
        (by show s.pc + 1 + 1 < PROG_SIZE; omega)]
      cases hb
      rfl

/-- A failing fetch raises BOUNDARY at the first cell past the program region, or at `pc` beyond it; the
opcode cell is there unless its own fetch failed. -/
theorem fetchInstr_error {s : State} {op : Option Byte} {r : Raise}
    (h : fetchInstr s = .error (op, r)) :
    (PROG_SIZE ≤ s.pc ∧ op = none ∧ r = ⟨.boundary, some s.pc⟩) ∨
      (s.pc < PROG_SIZE ∧ PROG_SIZE < s.pc + (decodeOpcode (s.mem.read s.pc)).length ∧
        op = some (s.mem.read s.pc) ∧ r = ⟨.boundary, some PROG_SIZE⟩) := by
  by_cases h0 : s.pc < PROG_SIZE
  · refine .inr ⟨h0, ?_⟩
    unfold fetchInstr at h
    rw [fetchByte_of_lt h0] at h
    simp only at h
    cases hs : decodeOpcode (s.mem.read s.pc) with
    | none i => rw [hs] at h; cases h
    | one k =>
      rw [hs] at h
      by_cases h1 : s.pc + 1 < PROG_SIZE
      · rw [fetchByte_of_lt (s := { s with pc := s.pc + 1 }) h1] at h
        cases h
      · rw [fetchByte_of_ge (s := { s with pc := s.pc + 1 }) (Nat.le_of_not_lt h1)] at h
        cases h
        obtain he : s.pc + 1 = PROG_SIZE := by omega
        exact ⟨by simp only [Shape.length]; omega, rfl, by rw [he]⟩
    | two k =>
      rw [hs] at h
      by_cases h1 : s.pc + 1 < PROG_SIZE
      · rw [fetchByte_of_lt (s := { s with pc := s.pc + 1 }) h1] at h
        simp only at h
        by_cases h2 : s.pc + 1 + 1 < PROG_SIZE
        · rw [fetchByte_of_lt (s := { s with pc := s.pc + 1 + 1 }) h2] at h
          cases h
        · rw [fetchByte_of_ge (s := { s with pc := s.pc + 1 + 1 }) (Nat.le_of_not_lt h2)] at h
          cases h
          obtain he : s.pc + 1 + 1 = PROG_SIZE := by omega
          exact ⟨by simp only [Shape.length]; omega, rfl, by rw [he]⟩
      · rw [fetchByte_of_ge (s := { s with pc := s.pc + 1 }) (Nat.le_of_not_lt h1)] at h
        cases h
        obtain he : s.pc + 1 = PROG_SIZE := by omega
        exact ⟨by simp only [Shape.length]; omega, rfl, by rw [he]⟩
  · unfold fetchInstr at h
    rw [fetchByte_of_ge (Nat.le_of_not_lt h0)] at h
    cases h
    exact .inl ⟨Nat.le_of_not_lt h0, rfl, rfl⟩

/-- A fetched instruction lies whole in the program region, is well-formed, and its opcode is the cell at
`pc`. -/
theorem fetchInstr_ok {s : State} {i : Instr} (h : fetchInstr s = .ok i) :
    s.pc + i.length ≤ PROG_SIZE ∧ i.wellFormed = true ∧ i.opcode = s.mem.read s.pc ∧
      i.length = (decodeOpcode (s.mem.read s.pc)).length := by
  by_cases h0 : s.pc < PROG_SIZE
  · have hS := decodeOpcode_sound (s.mem.read s.pc)
    have hL := decodeOpcode_length (s.mem.read s.pc)
    unfold fetchInstr at h
    rw [fetchByte_of_lt h0] at h
    simp only at h
    cases hs : decodeOpcode (s.mem.read s.pc) with
    | none j =>
      rw [hs] at h hS hL
      cases h
      exact ⟨by simp only at hL; omega, hS.2, (List.cons.inj hS.1).1, hL⟩
    | one k =>
      rw [hs] at h hS hL
      by_cases h1 : s.pc + 1 < PROG_SIZE
      · rw [fetchByte_of_lt (s := { s with pc := s.pc + 1 }) h1] at h
        cases h
        have := hL (s.mem.read (s.pc + 1))
        exact ⟨by show s.pc + (k (s.mem.read (s.pc + 1))).length ≤ PROG_SIZE; omega, (hS _).2, (List.cons.inj (hS _).1).1, this⟩
      · rw [fetchByte_of_ge (s := { s with pc := s.pc + 1 }) (Nat.le_of_not_lt h1)] at h
        cases h
    | two k =>
      rw [hs] at h hS hL
      by_cases h1 : s.pc + 1 < PROG_SIZE
      · rw [fetchByte_of_lt (s := { s with pc := s.pc + 1 }) h1] at h
        simp only at h
        by_cases h2 : s.pc + 1 + 1 < PROG_SIZE
        · rw [fetchByte_of_lt (s := { s with pc := s.pc + 1 + 1 }) h2] at h
          cases h
          have := hL (s.mem.read (s.pc + 1)) (s.mem.read (s.pc + 1 + 1))
          exact ⟨by
            show s.pc + (k (s.mem.read (s.pc + 1)) (s.mem.read (s.pc + 1 + 1))).length ≤ PROG_SIZE
            omega, (hS _ _).2, (List.cons.inj (hS _ _).1).1, this⟩
        · rw [fetchByte_of_ge (s := { s with pc := s.pc + 1 + 1 }) (Nat.le_of_not_lt h2)] at h
          cases h
      · rw [fetchByte_of_ge (s := { s with pc := s.pc + 1 }) (Nat.le_of_not_lt h1)] at h
        cases h
  · unfold fetchInstr at h
    rw [fetchByte_of_ge (Nat.le_of_not_lt h0)] at h
    cases h

/-- All that a tick can do (40_cycle.md R82). -/
theorem tick_cases {s t : State} (h : tick s = .next t) :
    (s.halted = true ∧ t = s) ∨
      (s.halted = false ∧ 0 < s.wait ∧ t = countDown s) ∨
      (s.halted = false ∧ s.wait = 0 ∧
        ((∃ i, fetchInstr s = .ok i ∧ exec i s = .next t) ∨
          ∃ op r, fetchInstr s = .error (op, r) ∧ t = takeFault s op r)) := by
  unfold tick at h
  split at h
  · next hh => cases h; exact .inl ⟨hh, rfl⟩
  · next hh =>
    rw [Bool.not_eq_true] at hh
    split at h
    · next hw => cases h; exact .inr (.inl ⟨hh, hw, rfl⟩)
    · next hw =>
      refine .inr (.inr ⟨hh, Nat.eq_zero_of_not_pos hw, ?_⟩)
      unfold tickInstr at h
      split at h
      · next i hi => exact .inl ⟨i, hi, h⟩
      · next op r hf => cases h; exact .inr ⟨op, r, hf, rfl⟩

theorem tick_of_instr {s : State} (hh : s.halted = false) (hw : s.wait = 0) : tick s = tickInstr s := by
  unfold tick
  simp [hh, hw]

end Sys2Proof.Machine
end

