-- ==== Sys2Proof/Laws/Core.lean ====
section
/-! SUPPORT. Runs of the machine behind the host's interface, one tick at a time. -/

namespace Sys2Proof.Machine

/-- A run of one step more, on any machine. -/
theorem run_succ_of_next {M : Host.Core} {s t : M.State} (h : M.step s = .next t) (n : Nat) :
    M.run (n + 1) s = M.run n t := by
  simp only [Host.Core.run, h]

theorem core_run_zero (s : State) : Sys2Proof.core.run 0 s = .next s := rfl

theorem core_run_succ {s t : State} (h : step s = .next t) (n : Nat) :
    Sys2Proof.core.run (n + 1) s = Sys2Proof.core.run n t :=
  run_succ_of_next (M := Sys2Proof.core) h n

theorem step_of_halted {s : State} (h : s.halted = true) : step s = .next s := by
  show tick s = _
  unfold tick
  rw [if_pos h]

theorem step_of_waiting {s : State} (h : s.halted = false) (hw : 0 < s.wait) :
    step s = .next (countDown s) := by
  show tick s = _
  unfold tick
  simp [h, hw]

/-- Ticks of a waiting engine only count its counter down (60_exceptions.md R166). -/
theorem core_run_waiting {s : State} (h : s.halted = false) {k : Nat} (hk : k ≤ s.wait) :
    Sys2Proof.core.run k s = .next { s with wait := s.wait - k } := by
  induction k generalizing s with
  | zero => rfl
  | succ k ih =>
    have hc : k ≤ (countDown s).wait := by simp; omega
    rw [core_run_succ (step_of_waiting h (by omega)), ih (s := countDown s) h hc]
    simp only [countDown]
    congr 2
    omega

end Sys2Proof.Machine
end

