-- ==== Sys2Proof/Laws/Exec.lean ====
section
/-! SUPPORT. All that executing an instruction can do, said once: it takes a fault, or it has an `Effect`. -/

namespace Sys2Proof.Machine

open Sys2Proof.Config

/-- A raised fault records an address exactly when it is BOUNDARY (60_exceptions.md R144). -/
abbrev Raise.Proper (r : Raise) : Prop := r.addr.isSome = true ↔ r.cause = .boundary

/-- Every fault a line can raise is proper. -/
def OnlyProper {α : Type} (x : Res α) : Prop := ∀ r, x = .error r → r.Proper

theorem OnlyProper.ok {α : Type} (a : α) : OnlyProper (.ok a : Res α) := fun _ h => nomatch h

theorem OnlyProper.bind {α β : Type} {x : Res α} {f : α → Res β} (hx : OnlyProper x)
    (hf : ∀ a, OnlyProper (f a)) : OnlyProper (x >>= f) := by
  cases x with
  | error r =>
    rintro r' h
    cases h
    exact hx r rfl
  | ok a => exact hf a

theorem OnlyProper.boundary {α : Type} (a : Nat) : OnlyProper (boundary a : Res α) := by
  intro r h
  cases h
  exact ⟨fun _ => rfl, fun _ => rfl⟩

theorem OnlyProper.raise {α : Type} {c : FaultCause} (hc : c ≠ .boundary) :
    OnlyProper (raise c : Res α) := by
  intro r h
  cases h
  exact ⟨fun h => (nomatch h), fun h => absurd h hc⟩

theorem OnlyProper.pop (s : State) : OnlyProper (pop s) := by
  unfold Machine.pop
  split
  · exact .raise (by decide)
  · exact .ok _

theorem OnlyProper.push (v : Value) (s : State) : OnlyProper (push v s) := by
  unfold Machine.push
  split
  · exact .raise (by decide)
  · exact .ok _

theorem OnlyProper.popTwo (s : State) : OnlyProper (popTwo s) :=
  (OnlyProper.pop s).bind fun _ => (OnlyProper.pop _).bind fun _ => .ok _

theorem OnlyProper.unpack (s : State) (v : Value) : OnlyProper (unpack s v) := by
  rw [unpack_eq]
  exact .ok _

theorem OnlyProper.dataWrite (s : State) (d v : Byte) : OnlyProper (dataWrite s (dataOffset d) v) := by
  rw [dataWrite_operand]
  exact .ok _

theorem OnlyProper.binary {op : Byte → Byte → Res Byte} (hop : ∀ x y, OnlyProper (op x y)) (s : State) :
    OnlyProper (binary op s) :=
  (OnlyProper.popTwo s).bind fun _ => (OnlyProper.unpack _ _).bind fun _ =>
    (OnlyProper.unpack _ _).bind fun _ => (hop _ _).bind fun _ => .ok _

theorem OnlyProper.pureOp (f : Byte → Byte → Byte) (x y : Byte) : OnlyProper (pureOp f x y) := .ok _

theorem OnlyProper.divOp (x y : Byte) : OnlyProper (divOp x y) := by
  unfold Machine.divOp
  split
  · exact .raise (by decide)
  · exact .ok _

theorem OnlyProper.popOptional (s : State) : OnlyProper (popOptional s) := by
  cases h : s.ostack with
  | nil => rw [popOptional_empty h]; exact .ok _
  | cons v rest => rw [popOptional_cons h]; exact .ok _

theorem OnlyProper.popXY (s : State) : OnlyProper (popXY s) :=
  (OnlyProper.pop s).bind fun _ => (OnlyProper.pop _).bind fun _ => (OnlyProper.unpack _ _).bind fun _ =>
    (OnlyProper.unpack _ _).bind fun _ => .ok _

theorem OnlyProper.surfBlit (x y : Nat) (off f : Byte) (s : State) : OnlyProper (surfBlit x y off f s) := by
  unfold Machine.surfBlit
  simp only
  split
  · exact .boundary _
  · exact .ok _

/-- What an instruction that takes no fault can do to each field (10_state.md R30). -/
structure Effect (i : Instr) (s t : State) : Prop where
  /-- the host's fields and the fault record are untouched -/
  host : t.fault = s.fault ∧ t.viewport = s.viewport ∧ t.arena = s.arena ∧ t.used = s.used ∧
    t.freel = s.freel
  pc : t.pc = s.pc + i.length ∨ t.pc < 256 ∨ t.pc ∈ s.cstack
  ostack : t.ostack.length ≤ s.ostack.length ∨
    (s.ostack.length ≠ STACK_CAP ∧ t.ostack.length = s.ostack.length + 1)
  cstack : t.cstack = s.cstack ∨ (i = .ret ∧ ∃ r, s.cstack = r :: t.cstack) ∨
    ((∃ b, i = .call b) ∧ s.cstack.length ≠ CALL_CAP ∧ t.cstack = (s.pc + i.length) :: s.cstack)
  flag : t.flag = s.flag ∨ ∃ d b, i = .cmp d b ∨ i = .cmpm d b
  wait : t.wait = s.wait ∨ (i = .wait ∧ t.wait ≤ 255 * waitScale)
  halted : t.halted = s.halted ∨ (i = .halt ∧ t.halted = true)
  dirty : t.dirty = (s.dirty || callsSurface i)
  mem : t.mem = s.mem ∨
    (∃ off v, storesTo i = some off ∧ off < 256 ∧ t.mem = s.mem.write (dataAddr off) v) ∨
    (callsSurface i = true ∧ (s.mem.wf → t.mem.wf) ∧
      ∀ a, a < VIDEO_BASE ∨ VIDEO_BASE + VIDEO_SIZE ≤ a → t.mem.read a = s.mem.read a)

/-- A result stored to the data cell an instruction names. -/
theorem Effect.store {i : Instr} {s : State} {d : Byte} {rest : List Value} {m : Memory} {v : Byte}
    (hi : storesTo i = some (dataOffset d)) (hc : callsSurface i = false)
    (hr : rest.length ≤ s.ostack.length) (hm : m = s.mem.write (dataAddr (dataOffset d)) v) :
    Effect i s { s with pc := s.pc + i.length, ostack := rest, mem := m } where
  host := ⟨rfl, rfl, rfl, rfl, rfl⟩
  pc := .inl rfl
  ostack := .inl hr
  cstack := .inl rfl
  flag := .inl rfl
  wait := .inl rfl
  halted := .inl rfl
  dirty := by simp [hc]
  mem := .inr (.inl ⟨_, v, hi, dataOffset_lt d, hm⟩)

/-- A result pushed, or nothing but the stack and `pc` changed. -/
theorem Effect.stack {i : Instr} {s : State} {rest : List Value} (hc : callsSurface i = false)
    (hr : rest.length ≤ s.ostack.length ∨
      (s.ostack.length ≠ STACK_CAP ∧ rest.length = s.ostack.length + 1)) :
    Effect i s { s with pc := s.pc + i.length, ostack := rest } where
  host := ⟨rfl, rfl, rfl, rfl, rfl⟩
  pc := .inl rfl
  ostack := hr
  cstack := .inl rfl
  flag := .inl rfl
  wait := .inl rfl
  halted := .inl rfl
  dirty := by simp [hc]
  mem := .inl rfl

/-- A call of the surface. -/
theorem Effect.surface {i : Instr} {s : State} {rest : List Value} {m : Memory}
    (hc : callsSurface i = true) (hr : rest.length ≤ s.ostack.length) (hw : s.mem.wf → m.wf)
    (ho : ∀ a, a < VIDEO_BASE ∨ VIDEO_BASE + VIDEO_SIZE ≤ a → m.read a = s.mem.read a) :
    Effect i s { s with pc := s.pc + i.length, ostack := rest, mem := m, dirty := true } where
  host := ⟨rfl, rfl, rfl, rfl, rfl⟩
  pc := .inl rfl
  ostack := .inl hr
  cstack := .inl rfl
  flag := .inl rfl
  wait := .inl rfl
  halted := .inl rfl
  dirty := by simp [hc]
  mem := .inr (.inr ⟨hc, hw, ho⟩)

/-- A change of `pc` alone. -/
theorem Effect.jump {i : Instr} {s : State} {p : Nat} (hc : callsSurface i = false)
    (hp : p = s.pc + i.length ∨ p < 256) : Effect i s { s with pc := p } where
  host := ⟨rfl, rfl, rfl, rfl, rfl⟩
  pc := hp.imp_right .inl
  ostack := .inl (Nat.le_refl _)
  cstack := .inl rfl
  flag := .inl rfl
  wait := .inl rfl
  halted := .inl rfl
  dirty := by simp [hc]
  mem := .inl rfl

/-- An execution: a proper fault, or an effect. -/
def Executes (i : Instr) (s t : State) : Prop :=
  (∃ r : Raise, r.Proper ∧ t = takeFault s (some i.opcode) r) ∨ Effect i s t

theorem Executes.of_body {i : Instr} {s t : State} {body : State → Res State}
    (h : runInstr i s body = .next t) (hp : ∀ u, OnlyProper (body u))
    (he : body { s with pc := s.pc + i.length } = .ok t → Effect i s t) : Executes i s t := by
  rcases runInstr_cases h with h | ⟨r, hr, rfl⟩
  · exact .inr (he h)
  · exact .inl ⟨r, hp _ r hr, rfl⟩

theorem Executes.binaryStack {i : Instr} {s t : State} {op : Byte → Byte → Res Byte}
    (h : runInstr i s (fun s => binaryStack op s) = .next t) (hop : ∀ x y, OnlyProper (op x y))
    (hc : callsSurface i = false) : Executes i s t := by
  refine .of_body h (fun u => (OnlyProper.binary hop u).bind fun _ => OnlyProper.push _ _) fun h => ?_
  obtain ⟨a, b, rest, r, hs, -, rfl⟩ := binaryStack_ok h
  replace hs : s.ostack = b :: a :: rest := hs
  exact Effect.stack hc (.inl (by simp [hs]))

theorem Executes.binaryMem {i : Instr} {s t : State} {op : Byte → Byte → Res Byte} {d : Byte}
    (h : runInstr i s (fun s => binaryMem op d s) = .next t) (hop : ∀ x y, OnlyProper (op x y))
    (hi : storesTo i = some (dataOffset d)) (hc : callsSurface i = false) : Executes i s t := by
  refine .of_body h (fun u => (OnlyProper.binary hop u).bind fun _ => OnlyProper.dataWrite _ _ _)
    fun h => ?_
  obtain ⟨a, b, rest, r, hs, -, rfl⟩ := binaryMem_ok h
  replace hs : s.ostack = b :: a :: rest := hs
  exact Effect.store hi hc (by simp [hs]; omega) rfl

theorem OnlyProper.shifted (op : Byte → Byte → Byte) (s : State) : OnlyProper (shifted op s) :=
  (OnlyProper.popTwo s).bind fun _ => (OnlyProper.unpack _ _).bind fun _ => .ok _

theorem OnlyProper.complemented (s : State) : OnlyProper (complemented s) :=
  (OnlyProper.pop s).bind fun _ => .ok _

theorem Executes.pushShifted {i : Instr} {s t : State} {op : Byte → Byte → Byte}
    (h : runInstr i s (fun s => pushResult (shifted op s)) = .next t) (hc : callsSurface i = false) :
    Executes i s t := by
  refine .of_body h (fun u => (OnlyProper.shifted op u).bind fun _ => OnlyProper.push _ _) fun h => ?_
  obtain ⟨v, u, hx, -, rfl⟩ := pushResult_ok h
  obtain ⟨a, b, rest, hs, -, rfl⟩ := shifted_ok hx
  replace hs : s.ostack = b :: a :: rest := hs
  exact Effect.stack hc (.inl (by simp [hs]))

theorem Executes.storeShifted {i : Instr} {s t : State} {op : Byte → Byte → Byte} {d : Byte}
    (h : runInstr i s (fun s => storeResult d (shifted op s)) = .next t)
    (hi : storesTo i = some (dataOffset d)) (hc : callsSurface i = false) : Executes i s t := by
  refine .of_body h (fun u => (OnlyProper.shifted op u).bind fun _ => (OnlyProper.unpack _ _).bind
    fun _ => OnlyProper.dataWrite _ _ _) fun h => ?_
  obtain ⟨v, u, hx, rfl⟩ := storeResult_ok h
  obtain ⟨a, b, rest, hs, -, rfl⟩ := shifted_ok hx
  replace hs : s.ostack = b :: a :: rest := hs
  exact Effect.store hi hc (by simp [hs]; omega) rfl

theorem Executes.jumpIf {i : Instr} {s t : State} {c : Flag → Bool} {b : Byte}
    (h : runInstr i s (fun s => jumpIf c b s) = .next t) (hc : callsSurface i = false) :
    Executes i s t := by
  refine .of_body h (fun u => .ok _) fun h => ?_
  unfold Machine.jumpIf at h
  cases h
  split
  · exact Effect.jump hc (.inr (by have := layout; have := b.isLt; unfold targetAddr; omega))
  · exact Effect.jump hc (.inl rfl)

theorem Executes.updateCell {i : Instr} {s t : State} {f : Byte → Byte} {d : Byte}
    (h : runInstr i s (fun s => updateCell f d s) = .next t)
    (hi : storesTo i = some (dataOffset d)) (hc : callsSurface i = false) : Executes i s t := by
  refine .of_body h (fun u => by rw [updateCell_eq]; exact .ok _) fun h => ?_
  rw [updateCell_eq] at h
  cases h
  exact Effect.store hi hc (Nat.le_refl _) rfl

theorem drawPixel_keeps (v : Viewport) (x y : Nat) (c : Byte) (m : Memory) :
    (m.wf → (drawPixel v x y c m).wf) ∧
      ∀ a, a < VIDEO_BASE ∨ VIDEO_BASE + VIDEO_SIZE ≤ a → (drawPixel v x y c m).read a = m.read a :=
  ⟨fun h => drawPixel_wf h _ _ _ _, fun _ h => read_drawPixel_outside h⟩

theorem fill_video_keeps (c : Byte) (m : Memory) :
    (m.wf → (m.fill VIDEO_BASE VIDEO_SIZE c).wf) ∧
      ∀ a, a < VIDEO_BASE ∨ VIDEO_BASE + VIDEO_SIZE ≤ a →
        (m.fill VIDEO_BASE VIDEO_SIZE c).read a = m.read a :=
  ⟨fun h => Memory.fill_wf h (by decide) c, fun _ h => Memory.read_fill_outside h⟩

/-- All that executing an instruction can do. -/
theorem exec_cases {i : Instr} {s t : State} (h : exec i s = .next t) : Executes i s t := by
  cases i with
  | halt =>
    simp only [exec, execHalt] at h
    refine .of_body h (fun _ => .ok _) fun h => ?_
    cases h
    exact { (Effect.stack rfl (.inl (Nat.le_refl _)) : Effect .halt s { s with pc := _ }) with
      halted := .inr ⟨rfl, rfl⟩ }
  | push b =>
    simp only [exec, execPush] at h
    refine .of_body h (fun _ => OnlyProper.push _ _) fun h => ?_
    obtain ⟨hl, rfl⟩ := push_ok h
    exact Effect.stack rfl (.inr ⟨hl, rfl⟩)
  | pushm b =>
    simp only [exec, execPushm] at h
    refine .of_body h (fun _ => OnlyProper.push _ _) fun h => ?_
    obtain ⟨hl, rfl⟩ := push_ok h
    exact Effect.stack rfl (.inr ⟨hl, rfl⟩)
  | pop d =>
    simp only [exec, execPop] at h
    refine .of_body h (fun u => (OnlyProper.pop u).bind fun _ => (OnlyProper.unpack _ _).bind fun _ =>
      OnlyProper.dataWrite _ _ _) fun h => ?_
    obtain ⟨v, rest, hs, rfl⟩ := popToMem_ok h
    replace hs : s.ostack = v :: rest := hs
    exact Effect.store rfl rfl (by simp [hs]) rfl
  | wait =>
    simp only [exec, execWait] at h
    refine .of_body h (fun u => (OnlyProper.pop u).bind fun _ => (OnlyProper.unpack _ _).bind fun _ =>
      .ok _) fun h => ?_
    obtain ⟨⟨v, u⟩, hp, h⟩ := bind_ok.mp h
    obtain ⟨rest, hs, rfl⟩ := pop_ok hp
    simp only [unpack_eq, ok_bind] at h
    cases h
    replace hs : s.ostack = v :: rest := hs
    have e : Effect .wait s { s with pc := _, ostack := rest } :=
      Effect.stack rfl (.inl (by simp [hs]))
    exact { e with
      wait := .inr ⟨rfl, Nat.mul_le_mul_right _ (by have := (v.numberIn s.mem).isLt; omega)⟩ }
  | add => exact .binaryStack h (OnlyProper.pureOp _) rfl
  | sub => exact .binaryStack h (OnlyProper.pureOp _) rfl
  | mul => exact .binaryStack h (OnlyProper.pureOp _) rfl
  | div => exact .binaryStack h OnlyProper.divOp rfl
  | and => exact .binaryStack h (OnlyProper.pureOp _) rfl
  | or => exact .binaryStack h (OnlyProper.pureOp _) rfl
  | xor => exact .binaryStack h (OnlyProper.pureOp _) rfl
  | addm d => exact .binaryMem h (OnlyProper.pureOp _) rfl rfl
  | subm d => exact .binaryMem h (OnlyProper.pureOp _) rfl rfl
  | mulm d => exact .binaryMem h (OnlyProper.pureOp _) rfl rfl
  | divm d => exact .binaryMem h OnlyProper.divOp rfl rfl
  | andm d => exact .binaryMem h (OnlyProper.pureOp _) rfl rfl
  | orm d => exact .binaryMem h (OnlyProper.pureOp _) rfl rfl
  | xorm d => exact .binaryMem h (OnlyProper.pureOp _) rfl rfl
  | lsh => exact .pushShifted h rfl
  | rsh => exact .pushShifted h rfl
  | lshm d => exact .storeShifted h rfl rfl
  | rshm d => exact .storeShifted h rfl rfl
  | not =>
    simp only [exec, execNot] at h
    refine .of_body h (fun u => (OnlyProper.complemented u).bind fun _ => OnlyProper.push _ _)
      fun h => ?_
    obtain ⟨v, u, hx, -, rfl⟩ := pushResult_ok h
    obtain ⟨a, rest, hs, -, rfl⟩ := complemented_ok hx
    replace hs : s.ostack = a :: rest := hs
    exact Effect.stack rfl (.inl (by simp [hs]))
  | notm d =>
    simp only [exec, execNotm] at h
    refine .of_body h (fun u => (OnlyProper.complemented u).bind fun _ =>
      (OnlyProper.unpack _ _).bind fun _ => OnlyProper.dataWrite _ _ _) fun h => ?_
    obtain ⟨v, u, hx, rfl⟩ := storeResult_ok h
    obtain ⟨a, rest, hs, -, rfl⟩ := complemented_ok hx
    replace hs : s.ostack = a :: rest := hs
    exact Effect.store rfl rfl (by simp [hs]) rfl
  | inc d => exact .updateCell h rfl rfl
  | dec d => exact .updateCell h rfl rfl
  | cmp d b =>
    simp only [exec, execCmp] at h
    refine .of_body h (fun u => by rw [dataRead_operand]; exact .ok _) fun h => ?_
    rw [dataRead_operand] at h
    cases h
    exact { (Effect.stack rfl (.inl (Nat.le_refl _)) : Effect (.cmp d b) s { s with pc := _ }) with
      flag := .inr ⟨d, b, .inl rfl⟩ }
  | cmpm d b =>
    simp only [exec, execCmpm] at h
    refine .of_body h (fun u => by simp only [dataRead_operand]; exact .ok _) fun h => ?_
    simp only [dataRead_operand] at h
    cases h
    exact { (Effect.stack rfl (.inl (Nat.le_refl _)) : Effect (.cmpm d b) s { s with pc := _ }) with
      flag := .inr ⟨d, b, .inr rfl⟩ }
  | jmp b => exact .jumpIf (c := fun _ => true) (b := b) h rfl
  | jeq b => exact .jumpIf h rfl
  | jne b => exact .jumpIf h rfl
  | jgt b => exact .jumpIf h rfl
  | jlt b => exact .jumpIf h rfl
  | jge b => exact .jumpIf h rfl
  | jle b => exact .jumpIf h rfl
  | call b =>
    simp only [exec, execCall] at h
    refine .of_body h (fun u => ?_) fun h => ?_
    · unfold callTo
      split
      · exact .raise (by decide)
      · exact .ok _
    · unfold callTo at h
      split at h
      · cases h
      · next hl =>
        cases h
        have e : Effect (.call b) s { s with pc := targetAddr b } :=
          Effect.jump rfl (.inr (by have := layout; have := b.isLt; unfold targetAddr; omega))
        exact { e with cstack := .inr (.inr ⟨⟨b, rfl⟩, hl, rfl⟩) }
  | ret =>
    simp only [exec, execRet] at h
    refine .of_body h (fun u => ?_) fun h => ?_
    · unfold returnFrom
      split
      · exact .raise (by decide)
      · exact .ok _
    · unfold returnFrom at h
      split at h
      · cases h
      · next r rest hs =>
        cases h
        replace hs : s.cstack = r :: rest := hs
        have e : Effect .ret s { s with pc := s.pc + Instr.ret.length } := Effect.jump rfl (.inl rfl)
        exact { e with
          pc := .inr (.inr (by simp [hs]))
          cstack := .inr (.inl ⟨rfl, r, hs⟩) }
  | putp b =>
    simp only [exec, execPutp] at h
    refine .of_body h (fun u => (OnlyProper.popXY u).bind fun _ => .ok _) fun h => ?_
    obtain ⟨⟨x, y, u⟩, hp, h⟩ := bind_ok.mp h
    obtain ⟨vx, vy, rest, hs, rfl, rfl, rfl⟩ := popXY_ok hp
    cases h
    replace hs : s.ostack = vx :: vy :: rest := hs
    obtain ⟨hw, ho⟩ := drawPixel_keeps s.viewport (vx.numberIn s.mem).toNat (vy.numberIn s.mem).toNat
      b s.mem
    exact Effect.surface rfl (by simp [hs]; omega) hw ho
  | putpm d =>
    simp only [exec, execPutpm] at h
    refine .of_body h (fun u => (OnlyProper.popXY u).bind fun _ => by
      rw [dataRead_operand]; exact .ok _) fun h => ?_
    obtain ⟨⟨x, y, u⟩, hp, h⟩ := bind_ok.mp h
    obtain ⟨vx, vy, rest, hs, rfl, rfl, rfl⟩ := popXY_ok hp
    simp only [dataRead_operand] at h
    cases h
    replace hs : s.ostack = vx :: vy :: rest := hs
    obtain ⟨hw, ho⟩ := drawPixel_keeps s.viewport (vx.numberIn s.mem).toNat (vy.numberIn s.mem).toNat
      (s.mem.read (dataAddr (dataOffset d))) s.mem
    exact Effect.surface rfl (by simp [hs]; omega) hw ho
  | puts d =>
    simp only [exec, execPuts] at h
    refine .of_body h (fun u => (OnlyProper.popXY u).bind fun _ => (OnlyProper.popOptional _).bind
      fun _ => OnlyProper.surfBlit _ _ _ _ _) fun h => ?_
    obtain ⟨⟨x, y, u⟩, hp, h⟩ := bind_ok.mp h
    obtain ⟨vx, vy, rest, hs, rfl, rfl, rfl⟩ := popXY_ok hp
    obtain ⟨⟨f, u⟩, hf, h⟩ := bind_ok.mp h
    obtain ⟨-, rfl⟩ := surfBlit_ok h
    replace hs : s.ostack = vx :: vy :: rest := hs
    rcases popOptional_ok hf with ⟨-, rfl, rfl⟩ | ⟨v, rest', hr, rfl, rfl⟩
    · exact Effect.surface rfl (by simp [hs]; omega) (fun hm => foldl_blitPixel_wf hm _ _ _ _ _)
        fun a ha => read_foldl_blitPixel_outside ha
    · replace hr : rest = v :: rest' := hr
      exact Effect.surface rfl (by simp [hs, hr]; omega) (fun hm => foldl_blitPixel_wf hm _ _ _ _ _)
        fun a ha => read_foldl_blitPixel_outside ha
  | sys c =>
    simp only [exec, execSys] at h
    refine .of_body h (fun u => ?_) fun h => ?_
    · split
      · exact (OnlyProper.popOptional u).bind fun _ => .ok _
      · exact .raise (by decide)
    · split at h
      · obtain ⟨⟨c, u⟩, hp, h⟩ := bind_ok.mp h
        cases h
        rcases popOptional_ok hp with ⟨-, rfl, rfl⟩ | ⟨v, rest, hs, rfl, rfl⟩
        · obtain ⟨hw, ho⟩ := fill_video_keeps 0 s.mem
          exact Effect.surface rfl (Nat.le_refl _) hw ho
        · replace hs : s.ostack = v :: rest := hs
          obtain ⟨hw, ho⟩ := fill_video_keeps (v.numberIn s.mem) s.mem
          exact Effect.surface rfl (by simp [hs]) hw ho
      · cases h
  | nop =>
    simp only [exec, execNop] at h
    refine .of_body h (fun _ => .ok _) fun h => ?_
    cases h
    exact Effect.stack rfl (.inl (Nat.le_refl _))
  | illegal op =>
    simp only [exec, execIllegal] at h
    refine .of_body h (fun _ => .raise (by decide)) fun h => ?_
    cases h

end Sys2Proof.Machine
end

