-- ==== Sys2Proof/Laws/Host.lean ====
section
/-! SUPPORT. The host's side: what a load's image writes (70_reset_and_hazards.md R169), and what a console
action can answer (60_exceptions.md R161). -/

namespace Sys2Proof.Machine

open Sys2Proof.Config

/-! ## Images -/

theorem fits_iff {im : Image} :
    im.fits = true ↔
      im.prog.length ≤ PROG_SIZE ∧ im.nlet ≤ DATA_SIZE ∧ ∀ p ∈ im.data, p.1 < DATA_SIZE := by
  unfold Image.fits
  simp only [Bool.and_eq_true, decide_eq_true_iff, List.all_eq_true, and_assoc]

theorem writeData_cons (m : Memory) (p : Nat × Byte) (ps : List (Nat × Byte)) :
    writeData m (p :: ps) = writeData (m.write (dataAddr p.1) p.2) ps := rfl

theorem writeData_wf {m : Memory} (hm : m.wf) {data : List (Nat × Byte)}
    (hd : ∀ p ∈ data, p.1 < DATA_SIZE) : (writeData m data).wf := by
  have hl := layout
  induction data generalizing m with
  | nil => exact hm
  | cons p ps ih =>
    have hp := hd p (by simp)
    exact ih (Memory.write_wf hm (by unfold dataAddr; omega) _) fun q hq => hd q (by simp [hq])

theorem read_writeData_other {m : Memory} {data : List (Nat × Byte)} {a : Nat}
    (hd : ∀ p ∈ data, a ≠ dataAddr p.1) : (writeData m data).read a = m.read a := by
  induction data generalizing m with
  | nil => rfl
  | cons p ps ih =>
    rw [writeData_cons, ih fun q hq => hd q (by simp [hq])]
    exact Memory.read_write_other _ (hd p (by simp)) _

theorem read_writeData_same {m : Memory} (hm : m.wf) {data : List (Nat × Byte)}
    (hd : ∀ p ∈ data, p.1 < DATA_SIZE) (hn : (data.map Prod.fst).Nodup) {off : Nat} {v : Byte}
    (h : (off, v) ∈ data) : (writeData m data).read (dataAddr off) = v := by
  have hl := layout
  induction data generalizing m with
  | nil => simp at h
  | cons p ps ih =>
    have hp := hd p (by simp)
    have hw : (m.write (dataAddr p.1) p.2).wf := Memory.write_wf hm (by unfold dataAddr; omega) _
    simp only [List.map_cons, List.nodup_cons] at hn
    rw [writeData_cons]
    rcases List.mem_cons.mp h with rfl | h
    · rw [read_writeData_other, Memory.read_write_same hm]
      intro q hq he
      have : off = q.1 := by unfold dataAddr at he; omega
      exact hn.1 (List.mem_map.mpr ⟨q, hq, this.symm⟩)
    · exact ih hw (fun q hq => hd q (by simp [hq])) hn.2 h

/-! ## What a console action can answer -/

/-- The engine's ticks never clear `dirty` (10_state.md R27). -/
theorem step_keeps_dirty {s t : State} (h : step s = .next t) (hd : s.dirty = true) :
    t.dirty = true := by
  rcases tick_cases h with ⟨-, rfl⟩ | ⟨-, -, rfl⟩ | ⟨-, -, ⟨i, -, he⟩ | ⟨op, r, -, rfl⟩⟩
  · exact hd
  · exact hd
  · rcases exec_cases he with ⟨r, -, rfl⟩ | e
    · exact hd
    · rw [e.dirty, hd]; rfl
  · exact hd

theorem storesTo_lt {i : Instr} {off : Nat} (h : storesTo i = some off) : off < 256 := by
  cases i <;> simp [storesTo] at h <;> (subst h; exact dataOffset_lt _)

/-- The state an action leaves: an accepted action's effect, or no change. -/
theorem after_cases (h : Harness) (a : HostAction) (c : Console) :
    c.after h a = c ∨ ∃ r, c.act h a = .ok (r, c.after h a) := by
  unfold Console.after
  split
  · next r c' he => exact .inr ⟨r, he⟩
  · exact .inl rfl

/-- All that an accepted action can do to the architectural state. -/
theorem act_cases {h : Harness} {a : HostAction} {c c' : Console} {r : HostReply}
    (he : c.act h a = .ok (r, c')) :
    (a = .tick ∧ step c.core = .next c'.core) ∨
      (∃ im, a = .load im ∧ im.fits = true ∧ c'.core = loadImage im c.core) ∨
      (a = .reset ∧ c'.core = engineReset c.core) ∨
      (a = .present ∧ c'.core = markPresented c.core) ∨
      (∃ x y w z, a = .viewport x y w z ∧ c'.core = setViewport x y w z c.core) ∨
      (a = .viewportReset ∧ c'.core = resetViewport c.core) ∨
      (a = .quit ∧ c'.core = quit c.core) ∨
      (∃ size off, a = .alloc size ∧ alloc size c.core = .ok (off, c'.core)) ∨
      (∃ off, a = .free off ∧ free off c.core = .ok c'.core) ∨
      (∃ b v, a = .rawWrite b v ∧ b < MEM_SIZE ∧
        c'.core = { c.core with mem := c.core.mem.write b v }) ∨
      c'.core = c.core := by
  cases a with
  | tick =>
    simp only [Console.act] at he
    split at he
    · split at he
      · next t ht => cases he; exact .inl ⟨rfl, ht⟩
      · next r hr => exact nomatch r
      · cases he
    · cases he
  | load im =>
    simp only [Console.act] at he
    split at he
    · split at he
      · next hf => cases he; exact .inr (.inl ⟨im, rfl, hf, rfl⟩)
      · cases he
    · cases he
  | reset => cases he; simp
  | present => cases he; simp
  | viewport x y w z => cases he; simp
  | viewportReset => cases he; simp
  | quit => cases he; simp
  | snapshot => cases he; simp
  | alloc n =>
    simp only [Console.act] at he
    split at he
    · split at he
      · next off s hs => cases he; simp [hs]
      · cases he
    · cases he
  | free n =>
    simp only [Console.act] at he
    split at he
    · split at he
      · next s hs => cases he; simp [hs]
      · cases he
    · cases he
  | readFault => cases he; simp
  | readHalted => cases he; simp
  | rawRead n =>
    simp only [Console.act] at he
    split at he
    · cases he; simp
    · cases he
  | rawWrite n v =>
    simp only [Console.act, memWrite] at he
    split at he
    · by_cases hn : n < MEM_SIZE
      · rw [if_pos hn] at he
        cases he
        simp [hn]
      · rw [if_neg hn] at he
        cases he
    · cases he

end Sys2Proof.Machine
end

