-- ==== Sys2Proof/Laws/PerInstr.lean ====
section
/-! SUPPORT. Statements made for every instruction, one lemma a constructor. -/

namespace Sys2Proof.Laws

/-- The length of an instruction's words is told by its opcode byte alone, and is at most `maxLength`
(30_encoding.md R61, R64). -/
def EncodedLength.Statement (i : Instr) : Prop :=
  i.wellFormed = true →
    (encode i).length = (decodeOpcode i.opcode).length ∧ (encode i).length ≤ maxLength

theorem EncodedLength.halt : EncodedLength.Statement .halt := fun _ => ⟨rfl, by decide⟩
theorem EncodedLength.push (a : Byte) : EncodedLength.Statement (.push a) := fun _ => ⟨rfl, Nat.le_succ 2⟩
theorem EncodedLength.pushm (a : Byte) : EncodedLength.Statement (.pushm a) := fun _ => ⟨rfl, Nat.le_succ 2⟩
theorem EncodedLength.pop (a : Byte) : EncodedLength.Statement (.pop a) := fun _ => ⟨rfl, Nat.le_succ 2⟩
theorem EncodedLength.wait : EncodedLength.Statement .wait := fun _ => ⟨rfl, by decide⟩
theorem EncodedLength.add : EncodedLength.Statement .add := fun _ => ⟨rfl, by decide⟩
theorem EncodedLength.sub : EncodedLength.Statement .sub := fun _ => ⟨rfl, by decide⟩
theorem EncodedLength.mul : EncodedLength.Statement .mul := fun _ => ⟨rfl, by decide⟩
theorem EncodedLength.div : EncodedLength.Statement .div := fun _ => ⟨rfl, by decide⟩
theorem EncodedLength.and : EncodedLength.Statement .and := fun _ => ⟨rfl, by decide⟩
theorem EncodedLength.or : EncodedLength.Statement .or := fun _ => ⟨rfl, by decide⟩
theorem EncodedLength.xor : EncodedLength.Statement .xor := fun _ => ⟨rfl, by decide⟩
theorem EncodedLength.addm (a : Byte) : EncodedLength.Statement (.addm a) := fun _ => ⟨rfl, Nat.le_succ 2⟩
theorem EncodedLength.subm (a : Byte) : EncodedLength.Statement (.subm a) := fun _ => ⟨rfl, Nat.le_succ 2⟩
theorem EncodedLength.mulm (a : Byte) : EncodedLength.Statement (.mulm a) := fun _ => ⟨rfl, Nat.le_succ 2⟩
theorem EncodedLength.divm (a : Byte) : EncodedLength.Statement (.divm a) := fun _ => ⟨rfl, Nat.le_succ 2⟩
theorem EncodedLength.andm (a : Byte) : EncodedLength.Statement (.andm a) := fun _ => ⟨rfl, Nat.le_succ 2⟩
theorem EncodedLength.orm (a : Byte) : EncodedLength.Statement (.orm a) := fun _ => ⟨rfl, Nat.le_succ 2⟩
theorem EncodedLength.xorm (a : Byte) : EncodedLength.Statement (.xorm a) := fun _ => ⟨rfl, Nat.le_succ 2⟩
theorem EncodedLength.lsh : EncodedLength.Statement .lsh := fun _ => ⟨rfl, by decide⟩
theorem EncodedLength.rsh : EncodedLength.Statement .rsh := fun _ => ⟨rfl, by decide⟩
theorem EncodedLength.lshm (a : Byte) : EncodedLength.Statement (.lshm a) := fun _ => ⟨rfl, Nat.le_succ 2⟩
theorem EncodedLength.rshm (a : Byte) : EncodedLength.Statement (.rshm a) := fun _ => ⟨rfl, Nat.le_succ 2⟩
theorem EncodedLength.not : EncodedLength.Statement .not := fun _ => ⟨rfl, by decide⟩
theorem EncodedLength.notm (a : Byte) : EncodedLength.Statement (.notm a) := fun _ => ⟨rfl, Nat.le_succ 2⟩
theorem EncodedLength.inc (a : Byte) : EncodedLength.Statement (.inc a) := fun _ => ⟨rfl, Nat.le_succ 2⟩
theorem EncodedLength.dec (a : Byte) : EncodedLength.Statement (.dec a) := fun _ => ⟨rfl, Nat.le_succ 2⟩
theorem EncodedLength.cmp (a b : Byte) : EncodedLength.Statement (.cmp a b) :=
  fun _ => ⟨rfl, Nat.le_refl 3⟩
theorem EncodedLength.cmpm (a b : Byte) : EncodedLength.Statement (.cmpm a b) :=
  fun _ => ⟨rfl, Nat.le_refl 3⟩
theorem EncodedLength.jmp (a : Byte) : EncodedLength.Statement (.jmp a) := fun _ => ⟨rfl, Nat.le_succ 2⟩
theorem EncodedLength.jeq (a : Byte) : EncodedLength.Statement (.jeq a) := fun _ => ⟨rfl, Nat.le_succ 2⟩
theorem EncodedLength.jne (a : Byte) : EncodedLength.Statement (.jne a) := fun _ => ⟨rfl, Nat.le_succ 2⟩
theorem EncodedLength.jgt (a : Byte) : EncodedLength.Statement (.jgt a) := fun _ => ⟨rfl, Nat.le_succ 2⟩
theorem EncodedLength.jlt (a : Byte) : EncodedLength.Statement (.jlt a) := fun _ => ⟨rfl, Nat.le_succ 2⟩
theorem EncodedLength.jge (a : Byte) : EncodedLength.Statement (.jge a) := fun _ => ⟨rfl, Nat.le_succ 2⟩
theorem EncodedLength.jle (a : Byte) : EncodedLength.Statement (.jle a) := fun _ => ⟨rfl, Nat.le_succ 2⟩
theorem EncodedLength.call (a : Byte) : EncodedLength.Statement (.call a) := fun _ => ⟨rfl, Nat.le_succ 2⟩
theorem EncodedLength.ret : EncodedLength.Statement .ret := fun _ => ⟨rfl, by decide⟩
theorem EncodedLength.putp (a : Byte) : EncodedLength.Statement (.putp a) := fun _ => ⟨rfl, Nat.le_succ 2⟩
theorem EncodedLength.putpm (a : Byte) : EncodedLength.Statement (.putpm a) := fun _ => ⟨rfl, Nat.le_succ 2⟩
theorem EncodedLength.puts (a : Byte) : EncodedLength.Statement (.puts a) := fun _ => ⟨rfl, Nat.le_succ 2⟩
theorem EncodedLength.sys (a : Byte) : EncodedLength.Statement (.sys a) := fun _ => ⟨rfl, Nat.le_succ 2⟩
theorem EncodedLength.nop : EncodedLength.Statement .nop := fun _ => ⟨rfl, by decide⟩
theorem EncodedLength.illegal (op : Byte) : EncodedLength.Statement (.illegal op) := fun h => by
  rw [show decodeOpcode (Instr.illegal op).opcode = .none (.illegal op) from
    decodeOpcode_illegal (of_decide_eq_true h)]
  exact ⟨rfl, Nat.succ_le_succ (Nat.zero_le 2)⟩

end Sys2Proof.Laws
end

