-- ==== Sys2Proof/Laws/Run.lean ====
section
/-! SUPPORT. The shared shapes of the instructions as whole instructions: the next state each gives, and the
fault it takes on a short stack. Then the operations of 42_alu.md R96 as naturals. -/

namespace Sys2Proof.Machine

open Sys2Proof.Config

/-! ## The operations as naturals (42_alu.md R96) -/

theorem toCell_mod (n : Nat) : toCell (n % 256) = toCell n := by
  apply BitVec.eq_of_toNat_eq
  simp [toCell]

theorem toCell_toNat (b : Byte) : toCell b.toNat = b := by
  apply BitVec.eq_of_toNat_eq
  simp [toCell]

theorem aluAdd_eq (x y : Byte) : aluAdd x y = toCell ((x.toNat + y.toNat) % 256) := (toCell_mod _).symm

theorem aluSub_eq (x y : Byte) : aluSub x y = toCell (((x.toNat : Int) - y.toNat) % 256).toNat := by
  apply BitVec.eq_of_toNat_eq
  simp [aluSub, toCell]
  omega

theorem aluMul_eq (x y : Byte) : aluMul x y = toCell ((x.toNat * y.toNat) % 256) := (toCell_mod _).symm

theorem aluAnd_eq (x y : Byte) : aluAnd x y = toCell (x.toNat &&& y.toNat) := by
  rw [← BitVec.toNat_and]
  exact (toCell_toNat _).symm

theorem aluOr_eq (x y : Byte) : aluOr x y = toCell (x.toNat ||| y.toNat) := by
  rw [← BitVec.toNat_or]
  exact (toCell_toNat _).symm

theorem aluXor_eq (x y : Byte) : aluXor x y = toCell (x.toNat ^^^ y.toNat) := by
  rw [← BitVec.toNat_xor]
  exact (toCell_toNat _).symm

theorem aluShl_eq (x y : Byte) : aluShl x y = toCell ((x.toNat * 2 ^ y.toNat) % 256) :=
  (toCell_mod _).symm

theorem two_pow_of_le {k : Nat} (h : 8 ≤ k) : 256 ∣ 2 ^ k := pow_dvd_pow 2 h

/-- A shift by 8 or more gives 0 (42_alu.md R96). -/
theorem aluShl_of_le {x y : Byte} (h : 8 ≤ y.toNat) : aluShl x y = 0 := by
  obtain ⟨q, hq⟩ := two_pow_of_le h
  rw [aluShl_eq, hq, Nat.mul_left_comm, Nat.mul_mod_right]
  rfl

theorem aluShr_of_le {x y : Byte} (h : 8 ≤ y.toNat) : aluShr x y = 0 := by
  have hp : 256 ≤ 2 ^ y.toNat := Nat.le_of_dvd (Nat.pos_of_ne_zero (by simp)) (two_pow_of_le h)
  unfold aluShr
  rw [Nat.div_eq_of_lt (by have := x.isLt; omega)]
  rfl

theorem divOp_of_ne {x y : Byte} (h : y.toNat ≠ 0) : divOp x y = .ok (toCell (x.toNat / y.toNat)) :=
  if_neg fun e => h (by simp [e])

theorem divOp_of_zero {x y : Byte} (h : y.toNat = 0) : divOp x y = raise .divZero :=
  if_pos (BitVec.eq_of_toNat_eq (by simpa using h))

/-! ## Short stacks (40_cycle.md R89) -/

theorem popTwo_short {s : State} (h : s.ostack.length < 2) : popTwo s = raise .stackUnderflow := by
  unfold popTwo
  match hs : s.ostack with
  | [] => rw [pop_empty hs]; rfl
  | [v] => rw [pop_eq hs]; rfl
  | _ :: _ :: _ => rw [hs] at h; simp at h

theorem popXY_short {s : State} (h : s.ostack.length < 2) : popXY s = raise .stackUnderflow := by
  unfold popXY
  match hs : s.ostack with
  | [] => rw [pop_empty hs]; rfl
  | [v] => rw [pop_eq hs]; rfl
  | _ :: _ :: _ => rw [hs] at h; simp at h

theorem pop_short {s : State} (h : s.ostack.length < 1) : pop s = raise .stackUnderflow :=
  pop_empty (List.eq_nil_of_length_eq_zero (by omega))

/-- An instruction that begins with pops takes STACK_UNDERFLOW when they fail, with nothing popped. -/
theorem run_underflow {α : Type} {i : Instr} {s : State} {pops : State → Res α} {f : α → Res State}
    (h : pops { s with pc := s.pc + i.length } = raise .stackUnderflow) :
    runInstr i s (fun s => pops s >>= f) = .next (takeFault s (some i.opcode) ⟨.stackUnderflow, none⟩) :=
  runInstr_error (by rw [h]; rfl)

/-! ## Whole instructions -/

theorem run_binaryStack {i : Instr} {s : State} {op : Byte → Byte → Res Byte} {a b : Value}
    {rest : List Value} {r : Byte} (h : s.ostack = b :: a :: rest)
    (hr : op (a.numberIn s.mem) (b.numberIn s.mem) = .ok r) (hl : rest.length ≠ STACK_CAP) :
    runInstr i s (fun s => binaryStack op s) =
      .next { s with pc := s.pc + i.length, ostack := .lit r :: rest } :=
  runInstr_ok (binaryStack_eq (s := { s with pc := s.pc + i.length }) h hr hl)

theorem run_binaryMem {i : Instr} {s : State} {op : Byte → Byte → Res Byte} {d : Byte} {a b : Value}
    {rest : List Value} {r : Byte} (h : s.ostack = b :: a :: rest)
    (hr : op (a.numberIn s.mem) (b.numberIn s.mem) = .ok r) :
    runInstr i s (fun s => binaryMem op d s) =
      .next { s with
        pc := s.pc + i.length, ostack := rest, mem := s.mem.write (dataAddr (dataOffset d)) r } :=
  runInstr_ok (binaryMem_eq (s := { s with pc := s.pc + i.length }) h hr)

/-- An operator that faults: the fault is taken at the start of the tick, with nothing popped. -/
theorem run_binary_error {i : Instr} {s : State} {op : Byte → Byte → Res Byte} {a b : Value}
    {rest : List Value} {e : Raise} {f : Byte × State → Res State} (h : s.ostack = b :: a :: rest)
    (hr : op (a.numberIn s.mem) (b.numberIn s.mem) = .error e) :
    runInstr i s (fun s => binary op s >>= f) = .next (takeFault s (some i.opcode) e) := by
  refine runInstr_error ?_
  unfold binary
  rw [popTwo_eq (s := { s with pc := s.pc + i.length }) h]
  simp [hr]

theorem run_pushShifted {i : Instr} {s : State} {op : Byte → Byte → Byte} {a b : Value}
    {rest : List Value} (h : s.ostack = b :: a :: rest) (hl : rest.length ≠ STACK_CAP) :
    runInstr i s (fun s => pushResult (shifted op s)) =
      .next { s with
        pc := s.pc + i.length
        ostack := a.retag (op a.payload (b.numberIn s.mem)) :: rest } :=
  runInstr_ok (by
    rw [shifted_eq (s := { s with pc := s.pc + i.length }) h]
    exact pushResult_eq hl)

theorem run_storeShifted {i : Instr} {s : State} {op : Byte → Byte → Byte} {d : Byte} {a b : Value}
    {rest : List Value} (h : s.ostack = b :: a :: rest) :
    runInstr i s (fun s => storeResult d (shifted op s)) =
      .next { s with
        pc := s.pc + i.length, ostack := rest
        mem := s.mem.write (dataAddr (dataOffset d))
          ((a.retag (op a.payload (b.numberIn s.mem))).numberIn s.mem) } :=
  runInstr_ok (by
    rw [shifted_eq (s := { s with pc := s.pc + i.length }) h]
    exact storeResult_eq _ _ _)

theorem run_pushComplement {i : Instr} {s : State} {a : Value} {rest : List Value}
    (h : s.ostack = a :: rest) (hl : rest.length ≠ STACK_CAP) :
    runInstr i s (fun s => pushResult (complemented s)) =
      .next { s with pc := s.pc + i.length, ostack := a.retag (aluNot a.payload) :: rest } :=
  runInstr_ok (by
    rw [complemented_eq (s := { s with pc := s.pc + i.length }) h]
    exact pushResult_eq hl)

theorem run_storeComplement {i : Instr} {s : State} {d : Byte} {a : Value} {rest : List Value}
    (h : s.ostack = a :: rest) :
    runInstr i s (fun s => storeResult d (complemented s)) =
      .next { s with
        pc := s.pc + i.length, ostack := rest
        mem := s.mem.write (dataAddr (dataOffset d))
          ((a.retag (aluNot a.payload)).numberIn s.mem) } :=
  runInstr_ok (by
    rw [complemented_eq (s := { s with pc := s.pc + i.length }) h]
    exact storeResult_eq _ _ _)

theorem run_updateCell {i : Instr} {s : State} {f : Byte → Byte} {d : Byte} :
    runInstr i s (fun s => updateCell f d s) =
      .next { s with
        pc := s.pc + i.length
        mem := s.mem.write (dataAddr (dataOffset d)) (f (s.mem.read (dataAddr (dataOffset d)))) } :=
  runInstr_ok (updateCell_eq _ _ _)

theorem run_popToMem {i : Instr} {s : State} {d : Byte} {v : Value} {rest : List Value}
    (h : s.ostack = v :: rest) :
    runInstr i s (fun s => popToMem d s) =
      .next { s with
        pc := s.pc + i.length, ostack := rest
        mem := s.mem.write (dataAddr (dataOffset d)) (v.numberIn s.mem) } :=
  runInstr_ok (popToMem_eq (s := { s with pc := s.pc + i.length }) d h)

theorem run_jumpIf {i : Instr} {s : State} {c : Flag → Bool} {t : Byte} :
    runInstr i s (fun s => jumpIf c t s) =
      .next { s with pc := if c s.flag then targetAddr t else s.pc + i.length } :=
  runInstr_ok (by unfold jumpIf; simp only; split <;> rfl)

theorem run_callTo {i : Instr} {s : State} {t : Byte} (h : s.cstack.length ≠ CALL_CAP) :
    runInstr i s (fun s => callTo t s) =
      .next { s with pc := targetAddr t, cstack := (s.pc + i.length) :: s.cstack } :=
  runInstr_ok (if_neg h)

theorem run_returnFrom {i : Instr} {s : State} {r : Nat} {rest : List Nat} (h : s.cstack = r :: rest) :
    runInstr i s (fun s => returnFrom s) = .next { s with pc := r, cstack := rest } :=
  runInstr_ok (by unfold returnFrom; simp only [h])

theorem execCmp_eq (d imm : Byte) (s : State) :
    execCmp d imm s =
      .next { s with
        pc := s.pc + 3, flag := compareFlag (s.mem.read (dataAddr (dataOffset d))) imm } := by
  unfold execCmp
  refine runInstr_ok ?_
  rw [dataRead_operand]
  rfl

theorem execCmpm_eq (d1 d2 : Byte) (s : State) :
    execCmpm d1 d2 s =
      .next { s with
        pc := s.pc + 3
        flag := compareFlag (s.mem.read (dataAddr (dataOffset d1)))
          (s.mem.read (dataAddr (dataOffset d2))) } := by
  unfold execCmpm
  refine runInstr_ok ?_
  simp only [dataRead_operand]
  rfl

theorem execWait_eq {s : State} {v : Value} {rest : List Value} (h : s.ostack = v :: rest) :
    execWait s =
      .next { s with
        pc := s.pc + 1, ostack := rest, wait := (v.numberIn s.mem).toNat * waitScale } := by
  unfold execWait
  refine runInstr_ok ?_
  rw [pop_eq (s := { s with pc := s.pc + Instr.length .wait }) h, ok_bind]
  simp only [unpack_eq]
  rfl

theorem execPutp_eq {b : Byte} {s : State} {vx vy : Value} {rest : List Value}
    (h : s.ostack = vx :: vy :: rest) :
    execPutp b s =
      .next (surfPut (vx.numberIn s.mem).toNat (vy.numberIn s.mem).toNat b
        { s with pc := s.pc + 2, ostack := rest }) := by
  unfold execPutp
  refine runInstr_ok ?_
  rw [popXY_eq (s := { s with pc := s.pc + Instr.length (.putp b) }) h]
  rfl

theorem execPutpm_eq {d : Byte} {s : State} {vx vy : Value} {rest : List Value}
    (h : s.ostack = vx :: vy :: rest) :
    execPutpm d s =
      .next (surfPut (vx.numberIn s.mem).toNat (vy.numberIn s.mem).toNat
        (s.mem.read (dataAddr (dataOffset d))) { s with pc := s.pc + 2, ostack := rest }) := by
  unfold execPutpm
  refine runInstr_ok ?_
  rw [popXY_eq (s := { s with pc := s.pc + Instr.length (.putpm d) }) h, ok_bind]
  simp only [dataRead_operand]
  rfl

/-- `puts` after its pops: `f` is the frame, `rest'` the stack that is left. -/
theorem execPuts_eq {d f : Byte} {s : State} {vx vy : Value} {rest rest' : List Value}
    (h : s.ostack = vx :: vy :: rest)
    (hf : (rest = [] ∧ rest' = [] ∧ f = 0) ∨ ∃ v, rest = v :: rest' ∧ f = v.numberIn s.mem) :
    execPuts d s =
      runInstr (.puts d) s fun _ =>
        surfBlit (vx.numberIn s.mem).toNat (vy.numberIn s.mem).toNat d f
          { s with pc := s.pc + 2, ostack := rest' } := by
  have hp : popOptional { s with pc := s.pc + Instr.length (.puts d), ostack := rest } =
      .ok (f, { s with pc := s.pc + 2, ostack := rest' }) := by
    rcases hf with ⟨rfl, rfl, rfl⟩ | ⟨v, rfl, rfl⟩
    · exact popOptional_empty rfl
    · exact popOptional_cons rfl
  unfold execPuts runInstr
  simp only [popXY_eq (s := { s with pc := s.pc + Instr.length (.puts d) }) h, ok_bind, hp]

/-- `sys 0xF0` after its optional pop: `c` is the colour, `rest` the stack that is left. -/
theorem execSys_eq {c : Byte} {s : State} {rest : List Value}
    (h : (s.ostack = [] ∧ rest = [] ∧ c = 0) ∨ ∃ v, s.ostack = v :: rest ∧ c = v.numberIn s.mem) :
    execSys SYS_CLEAR_SCREEN s =
      .next (surfClear c { s with pc := s.pc + 2, ostack := rest }) := by
  have hp : popOptional { s with pc := s.pc + Instr.length (.sys SYS_CLEAR_SCREEN) } =
      .ok (c, { s with pc := s.pc + 2, ostack := rest }) := by
    rcases h with ⟨hs, rfl, rfl⟩ | ⟨v, hs, rfl⟩
    · rw [popOptional_empty (by exact hs), ← hs]; rfl
    · exact popOptional_cons hs
  unfold execSys
  refine runInstr_ok ?_
  rw [if_pos rfl, hp]
  rfl

theorem execSys_illegal {code : Byte} {s : State} (h : code ≠ SYS_CLEAR_SCREEN) :
    execSys code s = .next (takeFault s (some 0x29) ⟨.illegalSyscall, none⟩) := by
  unfold execSys
  exact runInstr_error (if_neg h)

end Sys2Proof.Machine
end

