-- ==== Sys2Proof/Tests/Slice0.lean ====
section
/-! SUPPORT. Tests. The expected values are those of 95_test_vectors.md (its vector's name stands above each
test) or of the rule named there. Then one witness for the hypotheses of each statement that has any. -/

namespace Sys2Proof.Tests

open Sys2Proof.Config
open Sys2Proof.Machine

/-! ## Small states -/

/-- The outcome is a next state with the property. -/
def gives (o : Host.Outcome State Fault Refusal) (p : State → Bool) : Bool :=
  match o with
  | .next t => p t
  | .fault _ | .refused _ => false

/-- Power-on with the given operand stack, top first. -/
def stk (vs : List Value) : State := { State.reset with ostack := vs }

/-- Power-on with these bytes at program address 0, these data cells (offset, value) and this stack. -/
def ready (bytes : List Byte) (data : List (Nat × Byte)) (vs : List Value) : State :=
  { stk vs with mem := writeData (Memory.writeAll [] 0 bytes) data }

/-- The data cell at an offset. -/
def cell (s : State) (off : Nat) : Byte := s.mem.read (dataAddr off)

/-- The stop of a fault at program address 0: its record, and what a precise fault leaves alone. -/
def stoppedBy (s t : State) (cause : FaultCause) (op : Option Byte) (addr : Option Nat) : Bool :=
  t == { s with halted := true, fault := some ⟨cause, s.pc, op, addr⟩ }

/-! ## WellFormed -/

/-- 30_encoding.md R65: 0x05 is the opcode of `add`, so it is no illegal byte. -/
theorem test_wellFormed_refuses_opcode : (Instr.illegal 0x05).wellFormed = false := by decide
theorem test_wellFormed_refuses_last_opcode : (Instr.illegal 0x2A).wellFormed = false := by decide
theorem test_wellFormed_first_illegal : (Instr.illegal 0x2B).wellFormed = true := by decide

/-! ## Decoding: every row's word, written out from 30_encoding.md R61 and R63 -/

theorem test_decode_halt : decode [0x00#8] = .ok (.halt, []) := rfl
theorem test_decode_push : decode [0x01#8, 0xFF#8] = .ok (.push 0xFF, []) := rfl
theorem test_decode_pushm : decode [0x02#8, 0x03#8] = .ok (.pushm 3, []) := rfl
theorem test_decode_pop : decode [0x03#8, 0x01#8] = .ok (.pop 1, []) := rfl
theorem test_decode_wait : decode [0x04#8] = .ok (.wait, []) := rfl
theorem test_decode_add : decode [0x05#8] = .ok (.add, []) := rfl
theorem test_decode_sub : decode [0x06#8] = .ok (.sub, []) := rfl
theorem test_decode_mul : decode [0x07#8] = .ok (.mul, []) := rfl
theorem test_decode_div : decode [0x08#8] = .ok (.div, []) := rfl
theorem test_decode_and : decode [0x09#8] = .ok (.and, []) := rfl
theorem test_decode_or : decode [0x0A#8] = .ok (.or, []) := rfl
theorem test_decode_xor : decode [0x0B#8] = .ok (.xor, []) := rfl
theorem test_decode_addm : decode [0x0C#8, 0x80#8] = .ok (.addm 0x80, []) := rfl
theorem test_decode_subm : decode [0x0D#8, 0x80#8] = .ok (.subm 0x80, []) := rfl
theorem test_decode_mulm : decode [0x0E#8, 0x80#8] = .ok (.mulm 0x80, []) := rfl
theorem test_decode_divm : decode [0x0F#8, 0x80#8] = .ok (.divm 0x80, []) := rfl
theorem test_decode_andm : decode [0x10#8, 0x80#8] = .ok (.andm 0x80, []) := rfl
theorem test_decode_orm : decode [0x11#8, 0x80#8] = .ok (.orm 0x80, []) := rfl
theorem test_decode_xorm : decode [0x12#8, 0x80#8] = .ok (.xorm 0x80, []) := rfl
theorem test_decode_lsh : decode [0x13#8] = .ok (.lsh, []) := rfl
theorem test_decode_rsh : decode [0x14#8] = .ok (.rsh, []) := rfl
theorem test_decode_lshm : decode [0x15#8, 0x01#8] = .ok (.lshm 1, []) := rfl
theorem test_decode_rshm : decode [0x16#8, 0x01#8] = .ok (.rshm 1, []) := rfl
theorem test_decode_not : decode [0x17#8] = .ok (.not, []) := rfl
theorem test_decode_notm : decode [0x18#8, 0x01#8] = .ok (.notm 1, []) := rfl
theorem test_decode_inc : decode [0x19#8, 0x02#8] = .ok (.inc 2, []) := rfl
theorem test_decode_dec : decode [0x1A#8, 0x02#8] = .ok (.dec 2, []) := rfl
theorem test_decode_cmp : decode [0x1B#8, 0x00#8, 0x05#8] = .ok (.cmp 0 5, []) := rfl
theorem test_decode_cmpm : decode [0x1C#8, 0x00#8, 0x01#8] = .ok (.cmpm 0 1, []) := rfl
theorem test_decode_jmp : decode [0x1D#8, 0x10#8] = .ok (.jmp 0x10, []) := rfl
theorem test_decode_jeq : decode [0x1E#8, 0x10#8] = .ok (.jeq 0x10, []) := rfl
theorem test_decode_jne : decode [0x1F#8, 0x10#8] = .ok (.jne 0x10, []) := rfl
theorem test_decode_jgt : decode [0x20#8, 0x10#8] = .ok (.jgt 0x10, []) := rfl
theorem test_decode_jlt : decode [0x21#8, 0x10#8] = .ok (.jlt 0x10, []) := rfl
theorem test_decode_jge : decode [0x22#8, 0x10#8] = .ok (.jge 0x10, []) := rfl
theorem test_decode_jle : decode [0x23#8, 0x10#8] = .ok (.jle 0x10, []) := rfl
theorem test_decode_call : decode [0x24#8, 0x05#8] = .ok (.call 5, []) := rfl
theorem test_decode_ret : decode [0x25#8] = .ok (.ret, []) := rfl
theorem test_decode_putp : decode [0x26#8, 0x09#8] = .ok (.putp 9, []) := rfl
theorem test_decode_putpm : decode [0x27#8, 0x01#8] = .ok (.putpm 1, []) := rfl
theorem test_decode_puts : decode [0x28#8, 0xC8#8] = .ok (.puts 0xC8, []) := rfl
theorem test_decode_sys : decode [0x29#8, 0xF0#8] = .ok (.sys 0xF0, []) := rfl
theorem test_decode_nop : decode [0x2A#8] = .ok (.nop, []) := rfl
theorem test_decode_illegal : decode [0xFF#8] = .ok (.illegal 0xFF, []) := rfl
theorem test_decode_leaves_rest : decode [0x2A#8, 0x1D#8, 0x05#8] = .ok (.nop, [0x1D#8, 0x05#8]) := rfl
theorem test_decode_nothing : decode [] = .error .noOpcode := rfl
theorem test_decode_cut_cmp : decode [0x1B#8, 0x00#8] = .error (.missingOperand 0x1B) := rfl

/-- spec/opcode_table.json's numbering: the first byte is bits 7..0. -/
theorem test_table_word_cmp : decodeTableWord 24 0x05001B = some (.cmp 0 5) := rfl
theorem test_table_word_pads_with_zero : decodeTableWord 8 0x1B = some (.cmp 0 0) := rfl
theorem test_fetch_word_runs : gives (step (State.reset.withFetchWord 16 0x0701)) (fun t =>
    t.ostack == [.lit 7] && t.pc == 2) = true := by decide

/-! ## Stack transfer (T1, E12; T3; T4, E8) -/

theorem test_push : gives (step (ready [0x01, 0x07] [] [])) (fun t =>
    t.ostack == [.lit 7] && t.pc == 2) = true := by decide
set_option maxRecDepth 8000 in
theorem test_push_overflow :
    let s := ready [0x01, 0x01] [] (List.replicate 256 (.lit 1))
    gives (step s) (fun t => stoppedBy s t .stackOverflow (some 0x01) none) = true := by decide
theorem test_pushm : gives (step (ready [0x02, 0x00] [(0, 9)] [])) (fun t =>
    t.ostack == [.mem 0] && cell t 0 == 9) = true := by decide
theorem test_pop_mem : gives (step (ready [0x03, 0x01] [(0, 9)] [.mem 0])) (fun t =>
    t.ostack == [] && cell t 1 == 9 && cell t 0 == 9) = true := by decide
theorem test_pop_empty :
    let s := ready [0x03, 0x00] [] []
    gives (step s) (fun t => stoppedBy s t .stackUnderflow (some 0x03) none) = true := by decide

/-! ## Binary operations (A2; S7, A6; A11; A13, E4; A17; A22; A23; then A37 to A43, E5) -/

theorem test_add_wraps : gives (step (ready [0x05] [] [.lit 100, .lit 200])) (fun t =>
    t.ostack == [.lit 44] && t.pc == 1) = true := by decide
theorem test_add_short :
    let s := ready [0x05] [] [.lit 4]
    gives (step s) (fun t => stoppedBy s t .stackUnderflow (some 0x05) none) = true := by decide
theorem test_sub_order : gives (step (ready [0x06] [] [.lit 3, .lit 5])) (fun t =>
    t.ostack == [.lit 2]) = true := by decide
theorem test_sub_borrow : gives (step (ready [0x06] [] [.lit 5, .lit 3])) (fun t =>
    t.ostack == [.lit 254]) = true := by decide
theorem test_mul_low_byte : gives (step (ready [0x07] [] [.lit 13, .lit 20])) (fun t =>
    t.ostack == [.lit 4]) = true := by decide
theorem test_div_order : gives (step (ready [0x08] [] [.lit 2, .lit 7])) (fun t =>
    t.ostack == [.lit 3]) = true := by decide
theorem test_div_by_zero :
    let s := ready [0x08] [] [.lit 0, .lit 10]
    gives (step s) (fun t => stoppedBy s t .divZero (some 0x08) none) = true := by decide
theorem test_and : gives (step (ready [0x09] [] [.lit 60, .lit 240])) (fun t =>
    t.ostack == [.lit 48]) = true := by decide
theorem test_or : gives (step (ready [0x0A] [] [.lit 24, .lit 129])) (fun t =>
    t.ostack == [.lit 153]) = true := by decide
theorem test_xor : gives (step (ready [0x0B] [] [.lit 15, .lit 255])) (fun t =>
    t.ostack == [.lit 240]) = true := by decide
theorem test_addm : gives (step (ready [0x0C, 0x00] [(0, 0x77)] [.lit 100, .lit 200])) (fun t =>
    t.ostack == [] && cell t 0 == 44 && t.pc == 2) = true := by decide
/-- 42_alu.md R105: the operand `Mem(d)` reads the old value of the destination. -/
theorem test_addm_in_place : gives (step (ready [0x0C, 0x00] [(0, 0x77)] [.lit 1, .mem 0])) (fun t =>
    cell t 0 == 0x78) = true := by decide
theorem test_subm : gives (step (ready [0x0D, 0x00] [(0, 0x77)] [.lit 5, .lit 3])) (fun t =>
    cell t 0 == 254) = true := by decide
theorem test_mulm : gives (step (ready [0x0E, 0x00] [(0, 0x77)] [.lit 16, .lit 16])) (fun t =>
    cell t 0 == 0) = true := by decide
theorem test_divm : gives (step (ready [0x0F, 0x00] [(0, 0x77)] [.lit 4, .lit 9])) (fun t =>
    cell t 0 == 2) = true := by decide
theorem test_divm_by_zero :
    let s := ready [0x0F, 0x00] [(0, 33)] [.lit 0, .lit 9]
    gives (step s) (fun t => stoppedBy s t .divZero (some 0x0F) none) = true := by decide
theorem test_andm : gives (step (ready [0x10, 0x00] [(0, 0x77)] [.lit 90, .lit 255])) (fun t =>
    cell t 0 == 90) = true := by decide
theorem test_orm : gives (step (ready [0x11, 0x00] [(0, 0x77)] [.lit 24, .lit 129])) (fun t =>
    cell t 0 == 153) = true := by decide
theorem test_xorm : gives (step (ready [0x12, 0x00] [(0, 0x77)] [.lit 170, .lit 170])) (fun t =>
    cell t 0 == 0) = true := by decide

/-! ## Shift, complement, increment (A27, A29; A32, A34; N6; N8; N1; N5; N11; N12) -/

theorem test_lsh : gives (step (ready [0x13] [] [.lit 1, .lit 129])) (fun t =>
    t.ostack == [.lit 2]) = true := by decide
theorem test_lsh_by_eight : gives (step (ready [0x13] [] [.lit 8, .lit 1])) (fun t =>
    t.ostack == [.lit 0]) = true := by decide
theorem test_rsh : gives (step (ready [0x14] [] [.lit 4, .lit 240])) (fun t =>
    t.ostack == [.lit 15]) = true := by decide
/-- 42_alu.md R113: the tag of the value is kept, and the amount is unpacked. -/
theorem test_rsh_keeps_tag : gives (step (ready [0x14] [(7, 1)] [.mem 7, .mem 6])) (fun t =>
    t.ostack == [.mem 3]) = true := by decide
theorem test_lshm_address : gives (step (ready [0x15, 0x00] [(3, 0), (6, 11)] [.lit 1, .mem 3])) (fun t =>
    t.ostack == [] && cell t 0 == 11) = true := by decide
theorem test_rshm_by_eight : gives (step (ready [0x16, 0x01] [(0, 0x44)] [.lit 8, .mem 0])) (fun t =>
    cell t 1 == 0x44) = true := by decide
theorem test_not : gives (step (ready [0x17] [] [.lit 0x0F])) (fun t =>
    t.ostack == [.lit 0xF0]) = true := by decide
theorem test_notm_address : gives (step (ready [0x18, 0x01] [(0, 5), (255, 77)] [.mem 0])) (fun t =>
    cell t 1 == 77) = true := by decide
theorem test_inc_wraps : gives (step (ready [0x19, 0x00] [(0, 255)] [])) (fun t =>
    cell t 0 == 0 && t.pc == 2) = true := by decide
theorem test_dec_wraps : gives (step (ready [0x1A, 0x00] [(0, 0)] [])) (fun t =>
    cell t 0 == 255) = true := by decide

/-! ## Compare and jumps (C-4, C-5, C-6, C-8; the jump table; J1; K1, K3; S5) -/

theorem test_cmp_less : gives (step (ready [0x1B, 0x00, 0xFF] [(0, 0)] [])) (fun t =>
    t.flag == .less && t.pc == 3) = true := by decide
theorem test_cmp_greater : gives (step (ready [0x1B, 0x00, 0x00] [(0, 255)] [])) (fun t =>
    t.flag == .greater) = true := by decide
theorem test_cmpm_less : gives (step (ready [0x1C, 0x00, 0x01] [(0, 2), (1, 9)] [])) (fun t =>
    t.flag == .less) = true := by decide
theorem test_cmpm_equal :
    gives (step { ready [0x1C, 0x00, 0x00] [(0, 9)] [] with flag := .less }) (fun t =>
      t.flag == .equal) = true := by decide

/-- The `pc` a jump of this opcode at 0 with target 7 leaves, for Greater, Less, Equal. -/
def jumpRow (op : Byte) : List Nat :=
  [Flag.greater, .less, .equal].map fun f =>
    match step { ready [op, 0x07] [] [] with flag := f } with
    | .next t => t.pc
    | .fault _ | .refused _ => 0

theorem test_jmp : jumpRow 0x1D = [7, 7, 7] := by decide
theorem test_jeq : jumpRow 0x1E = [2, 2, 7] := by decide
theorem test_jne : jumpRow 0x1F = [7, 7, 2] := by decide
theorem test_jgt : jumpRow 0x20 = [7, 2, 2] := by decide
theorem test_jlt : jumpRow 0x21 = [2, 7, 2] := by decide
theorem test_jge : jumpRow 0x22 = [7, 2, 7] := by decide
theorem test_jle : jumpRow 0x23 = [2, 7, 7] := by decide

theorem test_call : gives (step (ready [0x24, 0x03] [] [])) (fun t =>
    t.cstack == [2] && t.pc == 3) = true := by decide
set_option maxRecDepth 8000 in
theorem test_call_overflow :
    let s := { ready [0x24, 0x00] [] [] with cstack := List.replicate 256 2 }
    gives (step s) (fun t => stoppedBy s t .callOverflow (some 0x24) none) = true := by decide
/-- 43_control.md R135: a return address above 255 is restored exactly. -/
theorem test_ret : gives (step { ready [0x25] [] [] with cstack := [0x1FE, 2] }) (fun t =>
    t.cstack == [2] && t.pc == 0x1FE) = true := by decide
theorem test_ret_empty :
    let s := ready [0x25] [] []
    gives (step s) (fun t => stoppedBy s t .callUnderflow (some 0x25) none) = true := by decide

/-! ## System (H1; H3; H7, E10; H8, H9, E15; E6) -/

theorem test_halt : gives (step (ready [0x00] [] [])) (fun t =>
    t.halted && t.pc == 1 && t.fault == none) = true := by decide
theorem test_nop : gives (step (ready [0x2A] [] [])) (fun t =>
    t == { ready [0x2A] [] [] with pc := 1 }) = true := by decide
theorem test_wait :
    exec .wait (ready [0x04] [(0, 4)] [.mem 0]) =
      .next { ready [0x04] [(0, 4)] [] with pc := 1, wait := 4 * waitScale } := rfl
theorem test_wait_empty :
    let s := ready [0x04] [] []
    gives (step s) (fun t => stoppedBy s t .stackUnderflow (some 0x04) none) = true := by decide
theorem test_sys_pops_colour :
    exec (.sys 0xF0) (stk [.lit 4, .lit 9]) = .next (surfClear 4 { stk [.lit 9] with pc := 2 }) := rfl
theorem test_sys_default_colour :
    let s := { stk [] with mem := [(0x0FFF, 1), (0x1000, 5), (0x4FFF, 6), (0x5000, 7)] }
    gives (exec (.sys 0xF0) s) (fun t =>
      t == { s with pc := 2, dirty := true, mem := [(0x0FFF, 1), (0x5000, 7)] }) = true := by decide
/-- 60_exceptions.md R155: the filled run, its two ends, and the cells beside it. -/
theorem test_fill : Memory.fill [(3, 1), (5, 2), (9, 2)] 4 3 7 = [(3, 1), (4, 7), (5, 7), (6, 7), (9, 2)] := by
  decide
theorem test_sys_other_code :
    let s := ready [0x29, 0x01] [] [.lit 7]
    gives (step s) (fun t => stoppedBy s t .illegalSyscall (some 0x29) none) = true := by decide
theorem test_illegal :
    let s := ready [0x2B] [] []
    gives (step s) (fun t => stoppedBy s t .illegalOpcode (some 0x2B) none) = true := by decide

/-! ## Draw (V1, V5; V2; V9, E16) -/

theorem test_putp : gives (step (ready [0x26, 0x09] [] [.lit 2, .lit 3])) (fun t =>
    t.mem.read 0x1182 == 9 && t.dirty && t.ostack == []) = true := by decide
theorem test_putp_off_screen :
    let s := ready [0x26, 0x09] [] [.lit 200, .lit 5]
    gives (step s) (fun t => t == { s with pc := 2, ostack := [], dirty := true }) = true := by decide
theorem test_putpm : gives (step (ready [0x27, 0x00] [(0, 7)] [.lit 0, .lit 0])) (fun t =>
    t.mem.read 0x1000 == 7) = true := by decide
/-- V6 and V9: row by row, clipped at the right edge: cell 1 is pixel (1, 0) of the block, cell 8 pixel (0, 1). -/
theorem test_puts : gives (step (ready [0x28, 0x00] [(1, 11), (4, 14), (8, 18)] [.lit 124, .lit 0])) (fun t =>
    t.mem.read 0x107D == 11 && t.mem.read 0x10FC == 18 && t.mem.read 0x1080 == 0 && t.dirty) = true := by
  decide
theorem test_puts_frame_outside :
    let s := ready [0x28, 0x00] [] [.lit 0, .lit 0, .lit 60]
    gives (step s) (fun t => stoppedBy s t .boundary (some 0x28) (some 0x5F00)) = true := by decide

/-! ## The tick (E1, E2; H2; H4) -/

theorem test_operand_fetch_outside :
    let s := { stk [] with pc := 0x0FFF, mem := [(0x0FFF, 0x01)] }
    gives (step s) (fun t => stoppedBy s t .boundary (some 0x01) (some 0x1000)) = true := by decide
theorem test_opcode_fetch_outside :
    let s := { stk [] with pc := 0x1000 }
    gives (step s) (fun t => stoppedBy s t .boundary none (some 0x1000)) = true := by decide
theorem test_halted_tick : gives (step { stk [] with halted := true, pc := 1 }) (fun t =>
    t == { stk [] with halted := true, pc := 1 }) = true := by decide
theorem test_waiting_tick : gives (step { stk [] with wait := 2, pc := 3 }) (fun t =>
    t == { stk [] with wait := 1, pc := 3 }) = true := by decide

/-- 60_exceptions.md R144. -/
theorem test_fault_codes :
    [FaultCause.boundary, .callUnderflow, .divZero, .illegalOpcode, .stackUnderflow, .stackOverflow,
      .callOverflow, .illegalSyscall].map FaultCause.code = [1, 2, 3, 4, 5, 6, 7, 8] := by decide

/-! ## The allocator (M3, M8, M4, M6; M7) -/

theorem test_alloc_oldest_free_first :
    alloc 1 { stk [] with arena := 4, freel := [⟨2, 2⟩, ⟨0, 2⟩] } =
      .ok (2, { stk [] with arena := 4, used := [⟨2, 2⟩], freel := [⟨0, 2⟩] }) := rfl
theorem test_alloc_exhausted :
    alloc 11 { stk [] with arena := 3830, used := [⟨0, 3830⟩] } = .error .allocExhausted := rfl
theorem test_alloc_zero : alloc 0 (stk []) = .error .allocZero := rfl
theorem test_free_unknown : free 7 (stk []) = .error .freeUnknown := rfl
theorem test_alloc_after_let : alloc 1 { stk [] with arena := 3 } =
    .ok (3, { stk [] with arena := 4, used := [⟨3, 1⟩] }) := rfl

/-! ## The host (R2, R4, R5, R8; 60_exceptions.md R162) -/

/-- A console that has ticked and runs. -/
def running : Console := ⟨stk [], true⟩

theorem test_load_refused_while_running :
    running.act .standalone (.load ⟨[0x00], [], 0⟩) = .error .notAllowed := rfl
theorem test_load_too_many_lets :
    Console.powerOn.act .standalone (.load ⟨[], [], 3841⟩) = .error .imageTooBig := rfl
theorem test_fits_too_long (v : Byte) : Image.fits ⟨List.replicate 4097 v, [], 0⟩ = false := by
  unfold Image.fits
  rw [List.length_replicate]
  rfl
theorem test_load_let : (Console.powerOn.after .standalone (.load ⟨[0x00], [(0, 42)], 1⟩)).core =
    { stk [] with mem := [(0x5000, 42)], arena := 1 } := by decide
theorem test_quit : running.after .standalone .quit = ⟨{ stk [] with halted := true }, true⟩ := rfl
theorem test_paused_tick :
    (Console.mk { stk [] with dirty := true } true).act .integrated .tick = .error .noTick := rfl
theorem test_standalone_tick : ((Console.mk { stk [] with dirty := true } true).after .standalone .tick).core.pc = 1 := by
  decide

/-! ## The assembler (S2; G1, G2, G5, G7; G8 to G16; G17) -/

/-- The program bytes of a source text. -/
def prog (src : String) : Option (List Byte) :=
  match assemble src.toList with
  | .ok im => some im.prog
  | .error _ => none

/-- The error of a source text. -/
def asmError (src : String) : Option AsmError :=
  match assemble src.toList with
  | .ok _ => none
  | .error e => some e

theorem test_labels : prog "back: nop jmp fwd jmp back fwd: halt" =
    some [0x2A, 0x1D, 0x05, 0x1D, 0x00, 0x00] := by decide
theorem test_case_hex_comment : prog "LOOP: PUSH 0x1F ; c" = some [0x01, 0x1F] := by decide
theorem test_let_forms : (match assemble "let a, [1, 2, 3] let b let c, 0x10 cmpM &a, &c".toList with
    | .ok im => im == ⟨[0x1C, 0, 4], [(0, 1), (1, 2), (2, 3), (3, 0), (4, 16)], 5⟩
    | .error _ => false) = true := by decide
theorem test_minus_skipped : prog "push -5" = some [0x01, 0x05] := by decide
theorem test_no_arity_check : prog "push 1, 2 halt" = some [0x01, 0x01, 0x02, 0x00] := by decide
theorem test_undefined_label : asmError "jmp nowhere" = some (.undefinedLabel "nowhere".toList) := by decide
theorem test_undefined_reference : asmError "pop &nothing" = some (.undefinedReference "nothing".toList) := by
  decide
theorem test_number_too_large : asmError "push 256" = some (.tooLarge 256) := by decide
theorem test_missing_comma : asmError "let q, [1 2]" = some (.listComma "q".toList 2) := by decide
theorem test_unterminated : asmError "let q, [1, 2" = some (.listOpen "q".toList) := by decide
theorem test_empty_list : asmError "let q, []" = some (.listEmpty "q".toList) := by decide
theorem test_bracket_outside : asmError "push [1]" = some .bracket := by decide
theorem test_duplicate_let : asmError "let x let x" = some (.duplicateLet "x".toList) := by decide
theorem test_duplicate_label : asmError "a: nop a: halt" = some (.duplicateLabel "a".toList) := by decide

/-! ## Witnesses: states and operands that meet each statement's hypotheses, at the ends of their ranges -/

/-- An operand stack of one value. -/
def oneUp : State := ready [] [(6, 3)] [.mem 6]
/-- An operand stack of two values; the top, `b`, is 200 and the other, `a`, is the cell at offset 6. -/
def twoUp : State := ready [] [(6, 3)] [.lit 200, .mem 6]
/-- A full operand stack, and one value less. -/
def fullUp : State := stk (List.replicate 256 (.lit 1))
def almostFullUp : State := stk (List.replicate 255 (.lit 1))
/-- A full call stack, and one address less. -/
def deepCalls : State := { stk [] with cstack := List.replicate 256 0x1000 }
def almostDeepCalls : State := { stk [] with cstack := List.replicate 255 0 }

theorem oneUp_mem : oneUp.mem.wf := by decide

theorem witness_DecodeInvertsEncode :
    (Instr.illegal 0x2B).wellFormed = true ∧ (Instr.illegal 0xFF).wellFormed = true ∧
      (Instr.cmp 0xFF 0).wellFormed = true ∧ Instr.nop.wellFormed = true := by decide
theorem witness_EncodeInvertsDecode :
    decode [0x1B#8, 0x00#8, 0xFF#8, 0x2A#8] = .ok (.cmp 0 0xFF, [0x2A#8]) := rfl
theorem witness_LengthFromOpcodeByte :
    decode (0x2B#8 :: [0x00#8]) = .ok (.illegal 0x2B, [0x00#8]) ∧
      (⟨['n', 'o', 'p'], 0x2A, .F0⟩ : OpcodeRow) ∈ opcodeTable := ⟨rfl, by decide⟩
theorem witness_StepRunsDecodedInstruction_halted : { stk [] with halted := true }.halted = true := rfl
theorem witness_StepRunsDecodedInstruction_waiting :
    { stk [] with wait := 1 }.halted = false ∧ 0 < { stk [] with wait := 1 }.wait := by decide
theorem witness_StepRunsDecodedInstruction_last_cells :
    let s := { stk [] with pc := 0x0FFD, mem := [(0x0FFD, 0x1B), (0x0FFF, 5)] }
    s.halted = false ∧ s.wait = 0 ∧ s.pc + 3 ≤ PROG_BASE + PROG_SIZE ∧
      decode (s.mem.copy s.pc 3) = .ok (.cmp 0 5, []) := ⟨rfl, rfl, by decide, rfl⟩
theorem witness_FetchOutsideProgramFaults_opcode :
    let s := { stk [] with pc := 0x1000 }
    s.halted = false ∧ s.wait = 0 ∧ PROG_BASE + PROG_SIZE ≤ s.pc := by decide
theorem witness_FetchOutsideProgramFaults_operand :
    let s := { stk [] with pc := 0x0FFE, mem := [(0x0FFE, 0x1B)] }
    s.halted = false ∧ s.wait = 0 ∧ s.pc < PROG_BASE + PROG_SIZE ∧
      PROG_BASE + PROG_SIZE < s.pc + (decodeOpcode (s.mem.read s.pc)).length := by decide
theorem witness_IllegalOpcodeByteFaults :
    let s := { stk [] with pc := 0x0FFF, mem := [(0x0FFF, 0x2B)] }
    s.halted = false ∧ s.wait = 0 ∧ s.pc < PROG_BASE + PROG_SIZE ∧ 0x2B ≤ (s.mem.read s.pc).toNat := by
  decide
theorem witness_FaultIsPrecise :
    let s := ready [0x25] [] []
    let t := s.faulted .callUnderflow (some 0x25) none
    step s = .next t ∧ t.fault ≠ s.fault := ⟨rfl, by decide⟩
theorem witness_HaltedEngineNeverChanges : { stk [.lit 1] with halted := true }.halted = true := rfl

theorem witness_PushPutsOperandOnTop :
    almostFullUp.ostack.length < STACK_CAP ∧ fullUp.ostack.length = STACK_CAP :=
  ⟨by rw [show almostFullUp.ostack.length = 255 from List.length_replicate]; decide,
    List.length_replicate⟩
theorem witness_PopStoresUnpackedValue : oneUp.mem.wf ∧ oneUp.ostack = [.mem 6] := by decide
theorem witness_ShortStackUnderflows :
    (stk []).ostack.length < requiredPops .wait ∧ oneUp.ostack.length < requiredPops .add ∧
      oneUp.ostack.length < requiredPops (.puts 0) := by decide

theorem witness_StackBinaryOpsPushResult :
    twoUp.ostack = [.lit 200, .mem 6] ∧ twoUp.ostack.length ≤ STACK_CAP := by decide
theorem witness_DivPushesQuotientOrFaults :
    let z := ready [] [] [.lit 0, .lit 1]
    twoUp.ostack = [.lit 200, .mem 6] ∧ ((Value.lit 200).numberIn twoUp.mem).toNat ≠ 0 ∧
      z.ostack = [.lit 0, .lit 1] ∧ z.ostack.length ≤ STACK_CAP ∧
      ((Value.lit 0).numberIn z.mem).toNat = 0 := by decide
theorem witness_MemoryBinaryOpsStoreResult : twoUp.mem.wf ∧ twoUp.ostack = [.lit 200, .mem 6] := by decide
theorem witness_DivmStoresQuotientOrFaults :
    let z := ready [] [] [.mem 0, .lit 1]
    twoUp.mem.wf ∧ ((Value.lit 200).numberIn twoUp.mem).toNat ≠ 0 ∧
      z.mem.wf ∧ z.ostack = [.mem 0, .lit 1] ∧ ((Value.mem 0).numberIn z.mem).toNat = 0 := by decide
theorem witness_ShiftsKeepTheTag :
    let s := ready [] [] [.lit 8, .mem 6]
    s.ostack = [.lit 8, .mem 6] ∧ s.ostack.length ≤ STACK_CAP ∧
      8 ≤ ((Value.lit 8).numberIn s.mem).toNat := by decide
theorem witness_MemoryShiftsStoreUnpacked : twoUp.mem.wf ∧ twoUp.ostack = [.lit 200, .mem 6] := by decide
theorem witness_ComplementKeepsTheTag :
    oneUp.mem.wf ∧ oneUp.ostack = [.mem 6] ∧ oneUp.ostack.length ≤ STACK_CAP := by decide
theorem witness_MemoryShiftIsShiftThenPop :
    twoUp.ostack.length ≤ STACK_CAP ∧ 2 ≤ twoUp.ostack.length ∧ 1 ≤ oneUp.ostack.length := by decide
theorem witness_IncDecUpdateOneCell : oneUp.mem.wf := oneUp_mem

theorem witness_CallPushesReturnAddress :
    almostDeepCalls.cstack.length < CALL_CAP ∧ deepCalls.cstack.length = CALL_CAP :=
  ⟨by rw [show almostDeepCalls.cstack.length = 255 from List.length_replicate]; decide,
    List.length_replicate⟩
theorem witness_RetPopsIntoPc :
    { stk [] with cstack := [0x1000, 2] }.cstack = [0x1000, 2] ∧ (stk []).cstack = [] := by decide
theorem witness_RetUndoesCall :
    exec (.call 5) (stk []) = .next { stk [] with pc := 5, cstack := [2] } ∧
      (stk []).cstack.length < CALL_CAP ∧
      { stk [.lit 1] with pc := 9, cstack := [2] }.cstack = [2] := ⟨rfl, by decide, rfl⟩

theorem witness_WaitSpendsItsTicks (k : Nat) (hk : k ≤ waitScale) :
    let s := stk [.lit 1]
    s.ostack = [.lit 1] ∧ s.halted = false ∧ k ≤ ((Value.lit 1).numberIn s.mem).toNat * waitScale :=
  ⟨rfl, rfl, by simpa [Value.numberIn] using hk⟩
theorem witness_SysClearsScreenOrFaults :
    (stk []).mem.wf ∧ (stk []).ostack = [] ∧ oneUp.mem.wf ∧ oneUp.ostack = [.mem 6] ∧
      (0xEF#8 ≠ 0xF0#8) ∧ (0xF1#8 ≠ 0xF0#8) := by decide

/-- In the clip's last corner and one pixel past it, under a viewport that reaches past the screen. -/
theorem witness_PutDrawsOneClippedPixel :
    let s := { ready [] [] [.lit 127, .lit 127] with viewport := ⟨120, 120, 100, 100⟩ }
    let u := { ready [] [] [.lit 128, .lit 127] with viewport := ⟨120, 120, 100, 100⟩ }
    s.mem.wf ∧ s.ostack = [.lit 127, .lit 127] ∧ inClip s.viewport 127 127 = true ∧
      u.mem.wf ∧ u.ostack = [.lit 128, .lit 127] ∧ inClip u.viewport 128 127 = false := by decide
/-- The last frame inside the data region (no frame value; 59), and the first outside it (60; 56 from 255). -/
theorem witness_PutsDrawsClippedBlock :
    twoUp.mem.wf ∧ twoUp.ostack = .lit 200 :: .mem 6 :: [] ∧ 0 + 64 * 0 + 63 < DATA_SIZE ∧
      (let s := ready [] [] [.lit 1, .lit 2, .lit 59]
       s.mem.wf ∧ s.ostack = .lit 1 :: .lit 2 :: [.lit 59] ∧ (59 : Byte) = (Value.lit 59).numberIn s.mem ∧
        (0 : Byte).toNat + 64 * (59 : Byte).toNat + 63 < DATA_SIZE) ∧
      DATA_SIZE ≤ (0 : Byte).toNat + 64 * (60 : Byte).toNat + 63 ∧
      DATA_SIZE ≤ (255 : Byte).toNat + 64 * (56 : Byte).toNat + 63 := by decide

theorem witness_ProgramAndConfigNeverWritten :
    step (ready [0x19, 0x00] [] []) =
      .next { ready [0x19, 0x00] [(0, 1)] [] with pc := 2 } ∧
      0x0FFF < PROG_BASE + PROG_SIZE ∧ CONFIG_BASE ≤ 0x5F00 := ⟨rfl, by decide, by decide⟩
theorem witness_OnlyStoringInstructionsWriteMemory :
    let s := ready [] [(0, 255)] []
    let t := { ready [] [(0, 0)] [] with pc := 2 }
    exec (.inc 0) s = .next t ∧ t.mem.read 0x5000 ≠ s.mem.read 0x5000 := ⟨rfl, by decide⟩
theorem witness_ControlFieldsHaveTheirWriters :
    exec .halt (stk []) = .next { stk [] with pc := 1, halted := true } ∧
      exec (.cmp 0 1) (stk []) = .next { stk [] with pc := 3, flag := .less } ∧
      exec (.call 5) (stk []) = .next { stk [] with pc := 5, cstack := [2] } ∧
      exec (.putp 0) (stk [.lit 0, .lit 0]) = .next { stk [] with pc := 2, dirty := true } ∧
      exec .wait (stk [.lit 1]) = .next { stk [] with pc := 1, wait := 1 * waitScale } ∧
      (1 * waitScale ≠ 0) :=
  ⟨rfl, rfl, rfl, rfl, rfl, by rw [Nat.one_mul]; exact Nat.succ_ne_zero _⟩
theorem witness_SurfaceCallsSetDirty :
    exec (.putp 0) (stk [.lit 0, .lit 0]) = .next { stk [] with pc := 2, dirty := true } ∧
      callsSurface (.putp 0) = true ∧
      exec (.sys 0xEF) (stk []) = .next ((stk []).faulted .illegalSyscall (some 0x29) none) ∧
      callsSurface (.sys 0xEF) = true := ⟨rfl, rfl, rfl, rfl⟩

/-- The invariant's part about the allocator, for one block in use and one free. -/
def twoBlocks : State := { stk [] with arena := 6, used := [⟨4, 2⟩], freel := [⟨0, 4⟩] }

theorem twoBlocks_allocInv : twoBlocks.allocInv := by decide
theorem twoBlocks_inv : twoBlocks.Inv :=
  ⟨⟨by decide, by decide, by decide, by decide, Nat.zero_le _, by decide⟩,
    fun _ h => (nomatch h), twoBlocks_allocInv⟩

theorem witness_StepKeepsInvariant :
    twoBlocks.Inv ∧ step twoBlocks = .next { twoBlocks with pc := 1, halted := true } :=
  ⟨twoBlocks_inv, rfl⟩
theorem witness_HostActionsKeepInvariant : (Console.mk twoBlocks false).core.Inv := twoBlocks_inv

theorem witness_HarnessGatesTicks :
    (Console.mk (stk []) true).core.halted = false ∧ (Console.mk (stk []) true).core.dirty = false ∧
      (Console.mk { stk [] with halted := true } true).core.halted = true := by decide
theorem witness_OnlyPresentClearsDirty :
    (Console.mk { stk [] with dirty := true } true).core.dirty = true ∧ HostAction.tick ≠ .present := by
  decide
theorem witness_LoadWritesTheImage :
    let im : Image := ⟨[0x19, 0x00, 0x00], [(0, 42), (3839, 1)], 1⟩
    Console.powerOn.core.mem.wf ∧ Console.powerOn.quiet = true ∧ im.fits = true ∧
      (im.data.map Prod.fst).Nodup := by decide
theorem witness_HostRefusedWhileRunning :
    running.core.halted = false ∧ running.ticked = true ∧ DATA_SIZE < (⟨[], [], 3841⟩ : Image).nlet := by
  decide
theorem witness_HostRefusedWhileRunning_long :
    PROG_SIZE < (⟨List.replicate 4097 0, [], 0⟩ : Image).prog.length := by
  rw [List.length_replicate]
  decide
theorem witness_RawPortChecksTheArray :
    Console.powerOn.core.mem.wf ∧ Console.powerOn.quiet = true ∧ running.quiet = false ∧
      0x5FFF < MEM_SIZE ∧ MEM_SIZE ≤ 0x6000 := by decide

theorem witness_AllocIsFirstFit :
    twoBlocks.freel = [] ++ ⟨0, 4⟩ :: [] ∧ (4 : Nat) ≤ (Block.mk 0 4).cap ∧
      (∀ x ∈ twoBlocks.freel, x.cap < 3834) ∧ twoBlocks.arena + 3834 ≤ DATA_SIZE ∧
      (∀ x ∈ twoBlocks.freel, x.cap < 3835) ∧ DATA_SIZE < twoBlocks.arena + 3835 := by decide
theorem witness_FreeAppendsToFreeList :
    twoBlocks.used = [] ++ ⟨4, 2⟩ :: [] ∧ (Block.mk 4 2).off = 4 ∧ ∀ x ∈ twoBlocks.used, x.off ≠ 0 := by
  decide
theorem witness_AllocatorNeverHandsOutTwice :
    twoBlocks.allocInv ∧
      alloc 4 twoBlocks = .ok (0, { twoBlocks with used := [⟨4, 2⟩, ⟨0, 4⟩], freel := [] }) ∧
      free 4 twoBlocks = .ok { twoBlocks with used := [], freel := [⟨0, 4⟩, ⟨4, 2⟩] } :=
  ⟨twoBlocks_allocInv, rfl, rfl⟩
theorem witness_FreedBlockIsReused :
    let t := { twoBlocks with arena := 11, used := [⟨4, 2⟩, ⟨6, 5⟩] }
    twoBlocks.allocInv ∧ (∀ x ∈ twoBlocks.freel, x.cap < 5) ∧ alloc 5 twoBlocks = .ok (6, t) ∧
      free 6 t = .ok { twoBlocks with arena := 11, freel := [⟨0, 4⟩, ⟨6, 5⟩] } :=
  ⟨twoBlocks_allocInv, by decide, rfl, rfl⟩

theorem witness_LabelsNameTheNextToken :
    pass2 [] 0 [.opcode 0x2A, .labelDecl ['a'], .num 1] =
      .ok ([(['a'], 1)], [.opcode 0x2A, .num 1]) := rfl
/-- Whether `n` times `1`, a label and `7` assembles, with the label after `n` tokens. -/
def labelAfter (n : Nat) : Bool :=
  let src := (List.replicate n ['1', ' ']).flatten ++ ['a', ':', ' ', '7']
  match pass1 .outside ⟨[], [], []⟩ (tokenize .idle src), assemble src with
  | .ok p, .ok im =>
    p.rest == List.replicate n (.num 1) ++ .labelDecl ['a'] :: [.num 7] &&
      im.prog == List.replicate n 1 ++ [7]
  | _, _ => false
/-- The last position that fits an atom, and the first that does not. -/
theorem witness_LabelsNameTheNextToken_byte : labelAfter 255 = true ∧ labelAfter 256 = true := by
  decide +kernel
theorem witness_AssembledImageFits :
    (match assemble "let x, 42 halt".toList with
      | .ok im => im == ⟨[0x00], [(0, 42)], 1⟩
      | .error _ => false) = true := by decide
theorem witness_LetCellsHoldTheirValues :
    Console.powerOn.core.mem.wf ∧ Console.powerOn.quiet = true ∧
      (match assemble "let a let t, [4, 5, 6] let b, 0xFF add".toList with
        | .ok im => im == ⟨[0x05], [(0, 0), (1, 4), (2, 5), (3, 6), (4, 255)], 5⟩
        | .error _ => false) = true := by decide
/-- The tokens of that text after its first name. -/
def afterA : List Token :=
  [.letKw, .ident ['t'], .comma, .lbrack, .num 4, .comma, .num 5, .comma, .num 6, .rbrack,
    .letKw, .ident ['b'], .comma, .num 255, .opcode 0x05]
theorem witness_LetCellsHoldTheirValues_tokens :
    tokenize .idle "let a let t, [4, 5, 6] let b, 0xFF add".toList = .letKw :: .ident ['a'] :: afterA := by
  decide
theorem witness_LetCellsHoldTheirValues_forms :
    letForm [] [0] afterA ∧
      (afterA = [] ++ .letKw :: .ident ['t'] ::
          ([.comma, .lbrack, .num 4, .comma, .num 5, .comma, .num 6, .rbrack] ++ afterA.drop 10) ∧
        letForm [.comma, .lbrack, .num 4, .comma, .num 5, .comma, .num 6, .rbrack] [4, 5, 6] (afterA.drop 10)) ∧
      (afterA.drop 10 = [] ++ .letKw :: .ident ['b'] :: ([.comma, .num 255] ++ [.opcode 0x05]) ∧
        letForm [.comma, .num 255] [255] [.opcode 0x05]) :=
  ⟨.inl ⟨rfl, rfl, by decide⟩, ⟨rfl, .inr (.inr ⟨by decide, rfl⟩)⟩, rfl, .inr (.inl ⟨255, rfl, rfl⟩)⟩

end Sys2Proof.Tests
end

section
/-! SUPPORT. The first tick from power-on (95_test_vectors.md section 2.11). -/

namespace Sys2Proof.Machine

/-- The third stage of the tick, once its fetch has answered (40_cycle.md R82). -/
theorem step_of_fetchInstr {s : State} {i : Instr} (hh : s.halted = false) (hw : s.wait = 0)
    (hf : fetchInstr s = .ok i) : step s = exec i s := by
  have ht : step s = tickInstr s := tick_of_instr hh hw
  rw [ht, tickInstr, hf]

/-- `halt` stops the engine with `pc` past its own cell (44_system.md R136). -/
theorem exec_halt_eq (s : State) : exec .halt s = .next { s with pc := s.pc + 1, halted := true } := by
  show execHalt s = _
  unfold execHalt
  exact runInstr_ok rfl

/-- An unlisted cell reads 0, and 0 is the opcode of `halt` (10_state.md R32, 30_encoding.md R63). -/
theorem fetchInstr_reset : fetchInstr State.reset = .ok .halt := by
  have hcell : State.reset.mem.read State.reset.pc = unlisted := Memory.read_nil _
  have hdecode : decode (State.reset.mem.copy State.reset.pc 1) = .ok (.halt, []) := by
    rw [copy_succ, hcell]
    rfl
  exact fetchInstr_of_decode (n := 1) (by decide) hdecode

/-- Settles O2: the engine is neither halted nor waiting, the fetch at cell 0 gives `halt`, and `halt` only moves
`pc` and stops the engine. -/
theorem firstTickFromPowerOnHalts : Obligations.FirstTickFromPowerOnHalts := by
  unfold Obligations.FirstTickFromPowerOnHalts
  have hstep : step State.reset = exec .halt State.reset := step_of_fetchInstr rfl rfl fetchInstr_reset
  rw [hstep]
  exact exec_halt_eq State.reset

end Sys2Proof.Machine
end

section
/-! SUPPORT. The region of each address (20_memory.md R34, R35). -/

namespace Sys2Proof.Machine

open Sys2Proof.Config

/-- The region an address of the array lies in: the last one that starts at or below it. -/
def regionAt (a : Nat) : Region :=
  if a < VIDEO_BASE then .program
  else if a < DATA_BASE then .video
  else if a < CONFIG_BASE then .data
  else .config

/-- Each region ends where the next one starts, and the last one at MEM_SIZE: the array has no gap. -/
theorem holds_regionAt {a : Nat} (ha : a < MEM_SIZE) : (regionAt a).holds a := by
  unfold regionAt
  split_ifs with hvideo hdata hconfig
  · exact ⟨Nat.zero_le a, hvideo⟩
  · exact ⟨not_lt.mp hvideo, hdata⟩
  · exact ⟨not_lt.mp hdata, hconfig⟩
  · exact ⟨not_lt.mp hconfig, ha⟩

theorem Region.end_le_memSize (r : Region) : r.base + r.size ≤ MEM_SIZE := by
  cases r <;> decide

/-- A region holds no address that `regionAt` gives to another: the regions are disjoint. -/
theorem regionAt_of_holds {r : Region} {a : Nat} (h : r.holds a) : regionAt a = r := by
  obtain ⟨hlow, hhigh⟩ := h
  have hvd : VIDEO_BASE ≤ DATA_BASE := by decide
  have hdc : DATA_BASE ≤ CONFIG_BASE := by decide
  unfold regionAt
  cases r with
  | program => exact if_pos hhigh
  | video =>
    have hv : ¬ a < VIDEO_BASE := hlow.not_gt
    rw [if_neg hv]
    exact if_pos hhigh
  | data =>
    have hd : ¬ a < DATA_BASE := hlow.not_gt
    rw [if_neg (hvd.trans hlow).not_gt, if_neg hd]
    exact if_pos hhigh
  | config =>
    have hd : ¬ a < DATA_BASE := (hdc.trans hlow).not_gt
    rw [if_neg ((hvd.trans hdc).trans hlow).not_gt, if_neg hd]
    exact if_neg hlow.not_gt

/-- Settles O3: an address of the array lies in the region `regionAt` gives and in no other, and an address
beyond the array lies in none. -/
theorem regionsPartitionMemory : Obligations.RegionsPartitionMemory := by
  unfold Obligations.RegionsPartitionMemory
  refine ⟨fun a => ⟨?below, ?covered⟩, ?disjoint⟩
  case below =>
    rintro ⟨r, hr⟩
    exact hr.2.trans_le r.end_le_memSize
  case covered =>
    intro ha
    exact ⟨regionAt a, holds_regionAt ha⟩
  case disjoint =>
    intro a r r' hr hr'
    exact (regionAt_of_holds hr).symm.trans (regionAt_of_holds hr')

end Sys2Proof.Machine
end

section
/-! SUPPORT. What the allocator's two calls answer, one equation per case (20_memory.md R55, R56). -/

namespace Sys2Proof.Machine

open Sys2Proof.Config

theorem alloc_zero (s : State) : alloc 0 s = .error .allocZero := rfl

/-- The first free block that fits is moved whole. -/
theorem alloc_of_fit {size : Nat} {s : State} {pre post : List Block} {b : Block} (h0 : 0 < size)
    (hl : s.freel = pre ++ b :: post) (hpre : ∀ x ∈ pre, x.cap < size) (hb : size ≤ b.cap) :
    alloc size s = .ok (b.off, { s with freel := pre ++ post, used := s.used ++ [b] }) := by
  obtain ⟨hfind, herase⟩ := find?_of_split (p := Block.fits size) (post := post) (b := b)
    (fun x hx => by simpa [Block.fits] using hpre x hx) (by simpa [Block.fits] using hb)
  rw [alloc, if_neg h0.ne', hl, hfind, herase]

/-- With no free block that fits, the arena's end decides. -/
theorem alloc_of_no_fit {size : Nat} {s : State} (h0 : 0 < size) (hl : ∀ x ∈ s.freel, x.cap < size) :
    alloc size s =
      if DATA_SIZE < s.arena + size then .error .allocExhausted
      else .ok (s.arena, { s with arena := s.arena + size, used := s.used ++ [⟨s.arena, size⟩] }) := by
  have hfind : s.freel.find? (Block.fits size) = none :=
    List.find?_eq_none.mpr fun x hx => by simpa [Block.fits] using hl x hx
  rw [alloc, if_neg h0.ne', hfind]

/-- The first block in use that starts at `off` moves to the tail of the free list. -/
theorem free_of_used {off : Nat} {s : State} {pre post : List Block} {b : Block}
    (hl : s.used = pre ++ b :: post) (hpre : ∀ x ∈ pre, x.off ≠ off) (hb : b.off = off) :
    free off s = .ok { s with used := pre ++ post, freel := s.freel ++ [b] } := by
  obtain ⟨hfind, herase⟩ := find?_of_split (p := Block.startsAt off) (post := post) (b := b)
    (fun x hx => by simpa [Block.startsAt] using hpre x hx) (by simpa [Block.startsAt] using hb)
  rw [free, hl, hfind, herase]

theorem free_of_unused {off : Nat} {s : State} (hl : ∀ x ∈ s.used, x.off ≠ off) :
    free off s = .error .freeUnknown := by
  have hfind : s.used.find? (Block.startsAt off) = none :=
    List.find?_eq_none.mpr fun x hx => by simpa [Block.startsAt] using hl x hx
  rw [free, hfind]

/-- Settles O52: the scan stops at the first free block that fits, and only a scan that finds none comes to
the arena. -/
theorem allocIsFirstFit : Obligations.AllocIsFirstFit := by
  unfold Obligations.AllocIsFirstFit
  intro size s
  refine ⟨?zero, ?fit, ?noFit⟩
  case zero =>
    rintro rfl
    exact alloc_zero s
  case fit =>
    intro pre post b h0 hl hpre hb
    exact alloc_of_fit h0 hl hpre hb
  case noFit =>
    intro h0 hl
    rw [alloc_of_no_fit h0 hl]
    exact ⟨fun hroom => if_neg hroom.not_gt, fun hfull => if_pos hfull⟩

/-- Settles O53: the scan of `used` finds the block with that offset, or no block has it. -/
theorem freeAppendsToFreeList : Obligations.FreeAppendsToFreeList := by
  unfold Obligations.FreeAppendsToFreeList
  intro off s
  exact ⟨fun _ _ _ hl hpre hb => free_of_used hl hpre hb, free_of_unused⟩

end Sys2Proof.Machine
end

section
/-! SUPPORT. The length of an instruction, told by its opcode byte alone (30_encoding.md R61, R64). -/

namespace Sys2Proof

/-- A decoded instruction has the length its opcode byte's shape gives. -/
theorem length_of_decode {op : Byte} {bs rest : List Byte} {i : Instr}
    (h : decode (op :: bs) = .ok (i, rest)) : i.length = (decodeOpcode op).length := by
  have hlen := decodeOpcode_length op
  obtain ⟨hs, -⟩ | ⟨k, b, hs, rfl, -⟩ | ⟨k, b, c, hs, rfl, -⟩ := decode_ok h
  · rw [hs] at hlen ⊢
    exact hlen
  · rw [hs] at hlen ⊢
    exact hlen b
  · rw [hs] at hlen ⊢
    exact hlen b c

/-- Decoding consumes the opcode byte and the operand cells that its shape waits for. -/
theorem decode_consumes {op : Byte} {bs rest : List Byte} {i : Instr}
    (h : decode (op :: bs) = .ok (i, rest)) :
    (op :: bs).length = (decodeOpcode op).length + rest.length := by
  obtain ⟨hs, rfl⟩ | ⟨k, b, hs, -, rfl⟩ | ⟨k, b, c, hs, -, rfl⟩ := decode_ok h
  all_goals
    rw [hs]
    simp only [Shape.length, List.length_cons]
    omega

/-- The decoder and the opcode map of 30_encoding.md R63 agree on every row's length. -/
theorem opcodeTable_length :
    ∀ row ∈ opcodeTable, (decodeOpcode row.opcode).length = row.format.length := by decide

/-- Settles O7: the opcode byte's shape fixes both the instruction's length and the cells decoding takes, and
each row's shape has the length of the row's format. -/
theorem lengthFromOpcodeByte : Obligations.LengthFromOpcodeByte := by
  unfold Obligations.LengthFromOpcodeByte
  refine ⟨?decoded, ?table⟩
  case decoded =>
    intro op bs rest i h
    have hlen := length_of_decode h
    exact ⟨hlen, hlen ▸ decode_consumes h⟩
  case table =>
    intro row hrow
    rw [opcodeTable_length row hrow]
    cases row.format <;> rfl

end Sys2Proof
end

section
/-! SUPPORT. The two compares, each as the whole next state (43_control.md R124, R125). -/

namespace Sys2Proof.Machine

/-- `cmp` compares its operand's data cell with the literal (43_control.md R124). -/
theorem exec_cmp_eq (d imm : Byte) (s : State) :
    exec (.cmp d imm) s =
      .next { s with
        pc := s.pc + 3, flag := compareFlag (s.mem.read (dataAddr (dataOffset d))) imm } :=
  execCmp_eq d imm s

/-- `cmpm` compares the data cells of its two operands (43_control.md R125). -/
theorem exec_cmpm_eq (d1 d2 : Byte) (s : State) :
    exec (.cmpm d1 d2) s =
      .next { s with
        pc := s.pc + 3
        flag := compareFlag (s.mem.read (dataAddr (dataOffset d1)))
          (s.mem.read (dataAddr (dataOffset d2))) } :=
  execCmpm_eq d1 d2 s

/-- Settles O26: both compares set the flag by `compareFlag`, which tests the two cells' numbers in the order of
R123. -/
theorem compareSetsFlag : Obligations.CompareSetsFlag := by
  unfold Obligations.CompareSetsFlag
  intro s d1 d2 imm
  exact ⟨exec_cmp_eq d1 imm s, exec_cmpm_eq d1 d2 s⟩

end Sys2Proof.Machine
end

section
/-! SUPPORT. The host's tick, issued and not issued (60_exceptions.md R162). -/

namespace Sys2Proof.Machine

/-- The harness's test as the rule states it: only the integrated harness looks at `dirty`. -/
theorem tickIssued_iff (h : Harness) (s : State) :
    tickIssued h s = true ↔ s.halted = false ∧ (h = .integrated → s.dirty = false) := by
  cases h with
  | integrated => simp [tickIssued]
  | standalone => simp [tickIssued]

/-- An issued tick is one step of the engine, and the console has ticked from then on. -/
theorem act_tick_of_issued {h : Harness} {c : Console} {t : State} (hi : tickIssued h c.core = true)
    (ht : step c.core = .next t) : c.act h .tick = .ok (.done, ⟨t, true⟩) := by
  simp only [Console.act, if_pos hi, ht]

theorem act_tick_of_not_issued {h : Harness} {c : Console} (hi : ¬tickIssued h c.core = true) :
    c.act h .tick = .error .noTick :=
  if_neg hi

/-- A refused action changes nothing. -/
theorem after_of_error {h : Harness} {a : HostAction} {c : Console} {e : HostError}
    (he : c.act h a = .error e) : c.after h a = c := by
  rw [Console.after, he]

/-- Settles O46: the harness's test is the rule's condition; where it holds the engine's step answers a next
state, and where it fails the host's tick is refused. -/
theorem harnessGatesTicks : Obligations.HarnessGatesTicks := by
  unfold Obligations.HarnessGatesTicks
  intro h c
  simp only [← tickIssued_iff]
  refine ⟨?issued, ?notIssued⟩
  case issued =>
    intro hi
    obtain ⟨t, ht⟩ : ∃ t, step c.core = .next t := tick_next c.core
    exact ⟨⟨t, true⟩, act_tick_of_issued hi ht, ht⟩
  case notIssued =>
    intro hi
    exact after_of_error (act_tick_of_not_issued hi)

end Sys2Proof.Machine
end

section
/-! SUPPORT. Power-on and the engine reset (70_reset_and_hazards.md R167, R168). -/

namespace Sys2Proof.Machine

open Sys2Proof.Config

/-- The memory of power-on lists no cell, and an unlisted cell reads 0 (10_state.md R32). -/
theorem reset_mem_read (a : Nat) : State.reset.mem.read a = 0 :=
  Memory.read_nil a

/-- Settles O1: `reset_mem_read` gives the cells; the other fields are the values `State.reset` lists, the
viewport's size being the screen's. -/
theorem powerOnState : Obligations.PowerOnState := by
  unfold Obligations.PowerOnState
  have hviewport : State.reset.viewport = ⟨0, 0, 128, 128⟩ := rfl
  exact ⟨reset_mem_read, rfl, rfl, rfl, rfl, rfl, rfl, rfl, hviewport, rfl, rfl, rfl, rfl⟩

/-- The host's reset is accepted at any time under either harness (60_exceptions.md R161), and it leaves what
the console knows of the ticks. -/
theorem act_reset (h : Harness) (c : Console) :
    c.act h .reset = .ok (.done, { c with core := engineReset c.core }) := rfl

/-- The engine reset as the whole next state, each field named. -/
theorem engineReset_eq (s : State) :
    engineReset s =
      { pc := PROG_BASE, ostack := [], cstack := [], flag := .equal, wait := 0, halted := false,
        fault := none, mem := s.mem, viewport := s.viewport, dirty := s.dirty, arena := s.arena,
        used := s.used, freel := s.freel } := rfl

/-- Settles O45: the host's reset is the engine reset, which gives the engine fields and keeps the others. -/
theorem engineResetKeepsMemoryAndSurface : Obligations.EngineResetKeepsMemoryAndSurface := by
  unfold Obligations.EngineResetKeepsMemoryAndSurface
  intro h c
  rw [act_reset, engineReset_eq]

end Sys2Proof.Machine
end

section
/-! SUPPORT. Decoding and encoding undo each other (30_encoding.md R61, R63, R65). -/

namespace Sys2Proof

/-- A shape that is given the operand cells `bs` builds `i`. -/
def Shape.Builds (i : Instr) (bs : List Byte) : Shape → Prop
  | .none j => j = i ∧ bs = []
  | .one k => ∃ b, k b = i ∧ bs = [b]
  | .two k => ∃ b c, k b c = i ∧ bs = [b, c]

/-- Every row of the opcode map: its opcode's shape builds the instruction from its own operand cells. -/
theorem decodeOpcode_opcode_builds {i : Instr} (h : i.wellFormed = true) :
    (decodeOpcode i.opcode).Builds i i.operands := by
  cases i with
  | illegal op =>
    have hs : decodeOpcode (Instr.illegal op).opcode = .none (.illegal op) :=
      decodeOpcode_illegal (of_decide_eq_true h)
    rw [hs]
    exact ⟨rfl, rfl⟩
  | cmp b c | cmpm b c => exact ⟨b, c, rfl, rfl⟩
  | push b | pushm b | pop b | addm b | subm b | mulm b | divm b | andm b | orm b | xorm b | lshm b
  | rshm b | notm b | inc b | dec b | jmp b | jeq b | jne b | jgt b | jlt b | jge b | jle b | call b
  | putp b | putpm b | puts b | sys b => exact ⟨b, rfl, rfl⟩
  | halt | wait | add | sub | mul | div | and | or | xor | lsh | rsh | not | ret | nop =>
    exact ⟨rfl, rfl⟩

/-- The decoder hands an opcode's shape the cells it waits for and leaves the others. -/
theorem decode_of_builds {op : Byte} {bs : List Byte} {i : Instr} (h : (decodeOpcode op).Builds i bs)
    (rest : List Byte) : decode (op :: bs ++ rest) = .ok (i, rest) := by
  cases hs : decodeOpcode op with
  | none j =>
    rw [hs] at h
    obtain ⟨rfl, rfl⟩ := h
    simp [decode, hs]
  | one k =>
    rw [hs] at h
    obtain ⟨b, rfl, rfl⟩ := h
    simp [decode, hs]
  | two k =>
    rw [hs] at h
    obtain ⟨b, c, rfl, rfl⟩ := h
    simp [decode, hs]

theorem decode_encode_append {i : Instr} (h : i.wellFormed = true) (rest : List Byte) :
    decode (encode i ++ rest) = .ok (i, rest) :=
  decode_of_builds (decodeOpcode_opcode_builds h) rest

/-- Settles O5: the shape of an instruction's opcode builds it from its operand cells, whatever follows. -/
theorem decodeInvertsEncode : Obligations.DecodeInvertsEncode := by
  unfold Obligations.DecodeInvertsEncode
  intro i rest h
  exact decode_encode_append h rest

/-- What an opcode's shape builds from operand cells encodes to the opcode and those cells. -/
theorem encode_append_of_decode {op : Byte} {bs rest : List Byte} {i : Instr}
    (h : decode (op :: bs) = .ok (i, rest)) : encode i ++ rest = op :: bs ∧ i.wellFormed = true := by
  have hsound := decodeOpcode_sound op
  obtain ⟨hs, rfl⟩ | ⟨k, b, hs, rfl, rfl⟩ | ⟨k, b, c, hs, rfl, rfl⟩ := decode_ok h
  all_goals rw [hs] at hsound
  · obtain ⟨henc, hwf⟩ := hsound
    exact ⟨by rw [henc]; rfl, hwf⟩
  · obtain ⟨henc, hwf⟩ := hsound b
    exact ⟨by rw [henc]; rfl, hwf⟩
  · obtain ⟨henc, hwf⟩ := hsound b c
    exact ⟨by rw [henc]; rfl, hwf⟩

/-- Settles O6: no instruction is decoded from no byte, and what a shape builds encodes to the cells it took. -/
theorem encodeInvertsDecode : Obligations.EncodeInvertsDecode := by
  unfold Obligations.EncodeInvertsDecode
  intro bs rest i h
  cases bs with
  | nil => exact nomatch h
  | cons op bs => exact encode_append_of_decode h

/-- The last of the twelve words is cut: the shape of `cmpm` waits for two cells and finds one. -/
theorem decode_cmpm_cut : decode [0x1C#8, 0x01#8] = .error (.missingOperand 0x1C) := rfl

/-- Settles O4: eleven words are encodings with what follows them, and one is cut. -/
theorem knownWordsDecode : Obligations.KnownWordsDecode := by
  unfold Obligations.KnownWordsDecode
  exact ⟨decode_encode_append (i := .halt) rfl [], decode_encode_append (i := .push 7) rfl [],
    decode_encode_append (i := .pop 0xFE) rfl [0x2A#8], decode_encode_append (i := .sub) rfl [],
    decode_encode_append (i := .rshm 0x80) rfl [], decode_encode_append (i := .cmp 0 5) rfl [],
    decode_encode_append (i := .cmpm 1 2) rfl [], decode_encode_append (i := .jle 0x10) rfl [],
    decode_encode_append (i := .puts 0x40) rfl [], decode_encode_append (i := .sys 0xF0) rfl [],
    decode_encode_append (i := .illegal 0x2B) rfl [], decode_cmpm_cut⟩

end Sys2Proof
end

section
/-! SUPPORT. What keeps the machine's invariant: a fault entry, a count of the wait counter, an instruction's
effect, and each of the host's writes (10_state.md R18-R26, 20_memory.md R57). -/

namespace Sys2Proof.Machine

open Sys2Proof.Config

/-- Settles O42: at power-on every stack and list is empty, `pc` and `wait` are 0 and no cell is listed. -/
theorem powerOnMeetsInvariant : Obligations.PowerOnMeetsInvariant := by
  unfold Obligations.PowerOnMeetsInvariant
  have hwait : State.reset.wait ≤ 255 * waitScale := Nat.zero_le _
  exact
    { bounds := ⟨by decide, by decide, by decide, by decide, hwait, reset_mem_wf⟩
      fault := fun _ h => nomatch h
      alloc := by decide }

/-! ## The engine -/

/-- A fault record comes with `halted`, so a running engine has none (60_exceptions.md R145). -/
theorem fault_eq_none_of_running {s : State} (hi : s.faultInv) (hh : s.halted = false) :
    s.fault = none := by
  rw [Option.eq_none_iff_forall_ne_some]
  intro f hf
  obtain ⟨hhalted, -⟩ := hi f hf
  exact absurd hhalted (by simp [hh])

theorem takeFault_keeps_inv {s : State} {op : Option Byte} {r : Raise} (hi : s.Inv) (hr : r.Proper)
    (hop : op = none → r.cause = .boundary) : (takeFault s op r).Inv where
  bounds := hi.bounds
  fault := by
    intro f hf
    cases hf
    exact ⟨rfl, rfl, hr, hop⟩
  alloc := hi.alloc

theorem countDown_keeps_inv {s : State} (hi : s.Inv) : (countDown s).Inv where
  bounds := by
    obtain ⟨hpc, hos, hcs, hret, hwait, hmem⟩ := hi.bounds
    exact ⟨hpc, hos, hcs, hret, (Nat.sub_le _ _).trans hwait, hmem⟩
  fault := hi.fault
  alloc := hi.alloc

/-- A one-cell data offset names a cell of the array, so a store there keeps the canonical form. -/
theorem write_data_wf {m : Memory} (hm : m.wf) {off : Nat} (h : off < 256) (v : Byte) :
    (m.write (dataAddr off) v).wf :=
  Memory.write_wf hm (by have := layout; unfold dataAddr; omega) v

/-- An instruction whose cells lie in the program region keeps the bounds. -/
theorem Effect.keeps_bounds {i : Instr} {s t : State} (e : Effect i s t) (hb : s.boundsInv)
    (hi : s.pc + i.length ≤ PROG_BASE + PROG_SIZE) : t.boundsInv := by
  have hl := layout
  obtain ⟨hpc, hos, hcs, hret, hwait, hmem⟩ := hb
  refine ⟨?pc, ?ostack, ?cstack, ?returns, ?wait, ?mem⟩
  case pc =>
    obtain h | h | h := e.pc
    · rw [h]; exact hi
    · omega
    · exact hret _ h
  case ostack =>
    obtain h | ⟨hne, h⟩ := e.ostack <;> omega
  case cstack =>
    obtain h | ⟨-, r, h⟩ | ⟨-, hne, h⟩ := e.cstack
    · rw [h]; exact hcs
    · rw [h, List.length_cons] at hcs
      omega
    · rw [h, List.length_cons]
      omega
  case returns =>
    intro r hr
    obtain h | ⟨-, r', h⟩ | ⟨-, -, h⟩ := e.cstack
    · exact hret r (h ▸ hr)
    · exact hret r (h ▸ List.mem_cons_of_mem r' hr)
    · rw [h] at hr
      obtain rfl | hr := List.mem_cons.mp hr
      · exact hi
      · exact hret r hr
  case wait =>
    obtain h | ⟨-, h⟩ := e.wait
    · rw [h]; exact hwait
    · exact h
  case mem =>
    obtain h | ⟨off, v, -, hoff, h⟩ | ⟨-, h, -⟩ := e.mem
    · rw [h]; exact hmem
    · rw [h]; exact write_data_wf hmem hoff v
    · exact h hmem

theorem Effect.keeps_inv {i : Instr} {s t : State} (e : Effect i s t) (hs : s.Inv)
    (hh : s.halted = false) (hi : s.pc + i.length ≤ PROG_BASE + PROG_SIZE) : t.Inv := by
  obtain ⟨hfault, -, harena, hused, hfreel⟩ := e.host
  refine ⟨e.keeps_bounds hs.bounds hi, ?fault, ?alloc⟩
  case fault =>
    intro f hf
    rw [hfault, fault_eq_none_of_running hs.fault hh] at hf
    exact nomatch hf
  case alloc =>
    have := hs.alloc
    unfold State.allocInv at this ⊢
    rwa [harena, hused, hfreel]

/-- A fetch fault is BOUNDARY with its address, so it is proper. -/
theorem fetchInstr_error_proper {s : State} {op : Option Byte} {r : Raise}
    (h : fetchInstr s = .error (op, r)) : r.Proper ∧ r.cause = .boundary := by
  obtain ⟨-, -, rfl⟩ | ⟨-, -, -, rfl⟩ := fetchInstr_error h
  · exact ⟨iff_of_true rfl rfl, rfl⟩
  · exact ⟨iff_of_true rfl rfl, rfl⟩

theorem step_keeps_inv {s t : State} (hs : s.Inv) (h : step s = .next t) : t.Inv := by
  obtain ⟨-, rfl⟩ | ⟨-, -, rfl⟩ | ⟨hh, -, ⟨i, hf, he⟩ | ⟨op, r, hf, rfl⟩⟩ := tick_cases h
  · exact hs
  · exact countDown_keeps_inv hs
  · obtain ⟨hi, -⟩ := fetchInstr_ok hf
    obtain ⟨r, hr, rfl⟩ | e := exec_cases he
    · exact takeFault_keeps_inv hs hr nofun
    · exact e.keeps_inv hs hh (by have := layout; omega)
  · obtain ⟨hr, hc⟩ := fetchInstr_error_proper hf
    exact takeFault_keeps_inv hs hr fun _ => hc

/-- Settles O43: a tick does nothing, counts down, takes a proper fault, or has the effect of an instruction
whose cells lie in the program region, and each of these keeps the invariant. -/
theorem stepKeepsInvariant : Obligations.StepKeepsInvariant := by
  unfold Obligations.StepKeepsInvariant
  intro s t hs h
  exact step_keeps_inv hs h

/-! ## The host -/

theorem engineReset_keeps_inv {s : State} (hi : s.Inv) : (engineReset s).Inv where
  bounds := by
    obtain ⟨-, -, -, -, -, hmem⟩ := hi.bounds
    exact ⟨Nat.zero_le _, Nat.zero_le _, Nat.zero_le _, nofun, Nat.zero_le _, hmem⟩
  fault := nofun
  alloc := hi.alloc

/-- A load that fits writes inside the array and prepares an allocator with no block. -/
theorem loadImage_keeps_inv {im : Image} {s : State} (hf : im.fits = true) (hi : s.Inv) :
    (loadImage im s).Inv := by
  have hl := layout
  obtain ⟨hprog, hlet, hdata⟩ := fits_iff.mp hf
  obtain ⟨-, -, -, -, -, hmem⟩ := hi.bounds
  have hmem' : (loadImage im s).mem.wf :=
    writeData_wf (Memory.writeAll_wf hmem (by omega)) hdata
  exact
    { bounds := ⟨Nat.zero_le _, Nat.zero_le _, Nat.zero_le _, nofun, Nat.zero_le _, hmem'⟩
      fault := nofun
      alloc := ⟨hlet, nofun, List.Pairwise.nil⟩ }

theorem markPresented_keeps_inv {s : State} (hi : s.Inv) : (markPresented s).Inv :=
  ⟨hi.bounds, hi.fault, hi.alloc⟩

theorem setViewport_keeps_inv {s : State} (x y w h : Nat) (hi : s.Inv) : (setViewport x y w h s).Inv :=
  ⟨hi.bounds, hi.fault, hi.alloc⟩

theorem resetViewport_keeps_inv {s : State} (hi : s.Inv) : (resetViewport s).Inv :=
  ⟨hi.bounds, hi.fault, hi.alloc⟩

theorem quit_keeps_inv {s : State} (hi : s.Inv) : (quit s).Inv where
  bounds := hi.bounds
  fault := by
    intro f hf
    obtain ⟨-, hrest⟩ := hi.fault f hf
    exact ⟨rfl, hrest⟩
  alloc := hi.alloc

theorem alloc_keeps_inv {size off : Nat} {s t : State} (hi : s.Inv) (h : alloc size s = .ok (off, t)) :
    t.Inv := by
  have halloc := alloc_keeps_allocInv hi.alloc h
  obtain ⟨-, ⟨_, _, _, -, -, -, -, rfl⟩ | ⟨-, -, -, rfl⟩⟩ := alloc_cases h
  · exact ⟨hi.bounds, hi.fault, halloc⟩
  · exact ⟨hi.bounds, hi.fault, halloc⟩

theorem free_keeps_inv {off : Nat} {s t : State} (hi : s.Inv) (h : free off s = .ok t) : t.Inv := by
  have halloc := free_keeps_allocInv hi.alloc h
  obtain ⟨_, _, _, -, -, -, rfl⟩ := free_cases h
  exact ⟨hi.bounds, hi.fault, halloc⟩

theorem write_keeps_inv {s : State} {a : Nat} (ha : a < MEM_SIZE) (v : Byte) (hi : s.Inv) :
    State.Inv { s with mem := s.mem.write a v } where
  bounds := by
    obtain ⟨hpc, hos, hcs, hret, hwait, hmem⟩ := hi.bounds
    exact ⟨hpc, hos, hcs, hret, hwait, Memory.write_wf hmem ha v⟩
  fault := hi.fault
  alloc := hi.alloc

theorem act_keeps_inv {h : Harness} {a : HostAction} {c c' : Console} {r : HostReply}
    (hi : c.core.Inv) (he : c.act h a = .ok (r, c')) : c'.core.Inv := by
  obtain ⟨-, ht⟩ | ⟨im, -, hf, ht⟩ | ⟨-, ht⟩ | ⟨-, ht⟩ | ⟨x, y, w, z, -, ht⟩ | ⟨-, ht⟩ | ⟨-, ht⟩ |
    ⟨size, off, -, ht⟩ | ⟨off, -, ht⟩ | ⟨b, v, -, hb, ht⟩ | ht := act_cases he
  · exact step_keeps_inv hi ht
  · exact ht ▸ loadImage_keeps_inv hf hi
  · exact ht ▸ engineReset_keeps_inv hi
  · exact ht ▸ markPresented_keeps_inv hi
  · exact ht ▸ setViewport_keeps_inv x y w z hi
  · exact ht ▸ resetViewport_keeps_inv hi
  · exact ht ▸ quit_keeps_inv hi
  · exact alloc_keeps_inv hi ht
  · exact free_keeps_inv hi ht
  · exact ht ▸ write_keeps_inv hb v hi
  · exact ht ▸ hi

/-- Settles O44: a refused action changes nothing, and each effect of an accepted one keeps the invariant. -/
theorem hostActionsKeepInvariant : Obligations.HostActionsKeepInvariant := by
  unfold Obligations.HostActionsKeepInvariant
  intro h a c hi
  obtain hsame | ⟨r, he⟩ := after_cases h a c
  · rw [hsame]
    exact hi
  · exact act_keeps_inv hi he

end Sys2Proof.Machine
end

section
/-! SUPPORT. What one tick does, by stage and by what its fetch answers (40_cycle.md R82-R86, 60_exceptions.md
R145, R146). -/

namespace Sys2Proof.Machine

open Sys2Proof.Config

/-! ## The three stages -/

/-- Settles O8: the first two stages are the tick's own tests; in the third the cells that decode to an
instruction are those that the fetch reads. -/
theorem stepRunsDecodedInstruction : Obligations.StepRunsDecodedInstruction := by
  unfold Obligations.StepRunsDecodedInstruction
  intro s
  refine ⟨step_of_halted, step_of_waiting, ?instr⟩
  intro hh hw n i hn hd
  have hfetch : fetchInstr s = .ok i := fetchInstr_of_decode (by have := layout; omega) hd
  exact step_of_fetchInstr hh hw hfetch

/-- Settles O12: a tick of a halted engine answers the same state, so every run of ticks does. -/
theorem haltedEngineNeverChanges : Obligations.HaltedEngineNeverChanges := by
  unfold Obligations.HaltedEngineNeverChanges
  intro n s hh
  induction n with
  | zero => exact core_run_zero s
  | succ n ih => rw [core_run_succ (step_of_halted hh), ih]

/-- Settles O13: each stage of the tick answers a next state, whatever the instruction. -/
theorem everyTickAnswers : Obligations.EveryTickAnswers := by
  unfold Obligations.EveryTickAnswers
  intro s
  exact tick_next s

/-! ## Fetch faults -/

/-- The third stage of the tick, when its fetch fails. -/
theorem step_of_fetch_error {s : State} {op : Option Byte} {r : Raise} (hh : s.halted = false)
    (hw : s.wait = 0) (hf : fetchInstr s = .error (op, r)) : step s = .next (takeFault s op r) := by
  have ht : step s = tickInstr s := tick_of_instr hh hw
  rw [ht, tickInstr, hf]

theorem fetchInstr_of_pc_outside {s : State} (h : PROG_SIZE ≤ s.pc) :
    fetchInstr s = .error (none, ⟨.boundary, some s.pc⟩) := by
  cases hf : fetchInstr s with
  | ok i =>
    obtain ⟨hi, -⟩ := fetchInstr_ok hf
    unfold Instr.length at hi
    omega
  | error e =>
    obtain ⟨op, r⟩ := e
    obtain ⟨-, rfl, rfl⟩ | ⟨hlt, -⟩ := fetchInstr_error hf
    · rfl
    · omega

theorem fetchInstr_of_operand_outside {s : State} (h0 : s.pc < PROG_SIZE)
    (h : PROG_SIZE < s.pc + (decodeOpcode (s.mem.read s.pc)).length) :
    fetchInstr s = .error (some (s.mem.read s.pc), ⟨.boundary, some PROG_SIZE⟩) := by
  cases hf : fetchInstr s with
  | ok i =>
    obtain ⟨hi, -, -, hlen⟩ := fetchInstr_ok hf
    omega
  | error e =>
    obtain ⟨op, r⟩ := e
    obtain ⟨hge, -⟩ | ⟨-, -, rfl, rfl⟩ := fetchInstr_error hf
    · omega
    · rfl

/-- Settles O9: a fetch that answers lies whole in the program region, so one that would leave it fails, at the
opcode cell or at an operand cell. -/
theorem fetchOutsideProgramFaults : Obligations.FetchOutsideProgramFaults := by
  unfold Obligations.FetchOutsideProgramFaults
  intro s hh hw
  have hl := layout
  refine ⟨?opcode, ?operand⟩
  case opcode =>
    intro h
    exact step_of_fetch_error hh hw (fetchInstr_of_pc_outside (by omega))
  case operand =>
    intro h0 h
    exact step_of_fetch_error hh hw (fetchInstr_of_operand_outside (by omega) (by omega))

/-! ## Illegal opcodes (30_encoding.md R65) -/

theorem exec_illegal_eq (op : Byte) (s : State) :
    exec (.illegal op) s = .next (takeFault s (some op) ⟨.illegalOpcode, none⟩) := by
  show execIllegal op s = _
  unfold execIllegal
  exact runInstr_error rfl

/-- Settles O34: the row's body raises ILLEGAL_OPCODE, and its opcode is its own byte. -/
theorem illegalTakesTheFault : Obligations.IllegalTakesTheFault := by
  unfold Obligations.IllegalTakesTheFault
  intro s op
  exact exec_illegal_eq op s

theorem fetchInstr_illegal {s : State} (h0 : s.pc < PROG_SIZE)
    (h : firstIllegal ≤ (s.mem.read s.pc).toNat) :
    fetchInstr s = .ok (.illegal (s.mem.read s.pc)) := by
  have hdecode : decode (s.mem.copy s.pc 1) = .ok (.illegal (s.mem.read s.pc), []) :=
    decode_encode_append (i := .illegal (s.mem.read s.pc)) (decide_eq_true h) []
  exact fetchInstr_of_decode (by omega) hdecode

/-- Settles O10: an illegal byte is fetched as the table's illegal row, which takes the fault. -/
theorem illegalOpcodeByteFaults : Obligations.IllegalOpcodeByteFaults := by
  unfold Obligations.IllegalOpcodeByteFaults
  intro s hh hw h0 h
  rw [step_of_fetchInstr hh hw (fetchInstr_illegal (by have := layout; omega) h)]
  exact exec_illegal_eq _ s

/-! ## Faults are precise (60_exceptions.md R145) -/

/-- The opcode a fault entry records: the cell at `pc`, unless `pc` is outside the program region. -/
theorem fault_opcode_of_fetch {s : State} {i : Instr} (hf : fetchInstr s = .ok i) :
    some i.opcode = if s.pc < PROG_BASE + PROG_SIZE then some (s.mem.read s.pc) else none := by
  have hl := layout
  obtain ⟨hi, -, hop, -⟩ := fetchInstr_ok hf
  rw [if_pos (by unfold Instr.length at hi; omega), hop]

theorem fault_opcode_of_fetch_error {s : State} {op : Option Byte} {r : Raise}
    (hf : fetchInstr s = .error (op, r)) :
    op = if s.pc < PROG_BASE + PROG_SIZE then some (s.mem.read s.pc) else none := by
  have hl := layout
  obtain ⟨hge, rfl, -⟩ | ⟨hlt, -, rfl, -⟩ := fetchInstr_error hf
  · rw [if_neg (by omega)]
  · rw [if_pos (by omega)]

/-- Settles O11: only a fault entry writes the record, from the tick's first state, with the opcode cell unless
its own fetch failed. -/
theorem faultIsPrecise : Obligations.FaultIsPrecise := by
  unfold Obligations.FaultIsPrecise
  intro s t h hne
  obtain ⟨-, rfl⟩ | ⟨-, -, rfl⟩ | ⟨-, -, ⟨i, hf, he⟩ | ⟨op, r, hf, rfl⟩⟩ := tick_cases h
  · exact absurd rfl hne
  · exact absurd rfl hne
  · obtain ⟨r, -, rfl⟩ | e := exec_cases he
    · exact ⟨r.cause, r.addr, by rw [← fault_opcode_of_fetch hf]; rfl⟩
    · obtain ⟨hfault, -⟩ := e.host
      exact absurd hfault hne
  · exact ⟨r.cause, r.addr, by rw [← fault_opcode_of_fetch_error hf]; rfl⟩

end Sys2Proof.Machine
end

section
/-! SUPPORT. The stack transfers and the arithmetic family, each instruction as the whole next state it gives
(41_stack.md R93-R95, 42_alu.md R96-R122). -/

namespace Sys2Proof.Machine

open Sys2Proof.Config

/-! ## Shared shapes -/

/-- An instruction whose body raises takes the fault with its own opcode and no address. -/
theorem run_raise {i : Instr} {s : State} {body : State → Res State} {c : FaultCause}
    (h : body { s with pc := s.pc + i.length } = raise c) :
    runInstr i s body = .next (s.faulted c (some i.opcode) none) :=
  runInstr_error h

theorem Memory.write_onlyAt {m : Memory} (hm : m.wf) (a : Nat) (v : Byte) :
    m.onlyAt (m.write a v) a v :=
  ⟨Memory.read_write_same hm a v, fun _ hb => Memory.read_write_other v hb m⟩

/-- An instruction whose next state differs by a store, the stack and `pc` changes one cell of memory. -/
theorem stores_of_exec {i : Instr} {s : State} {pc a : Nat} {rest : List Value} {v : Byte}
    (hm : s.mem.wf)
    (h : exec i s = .next { s with pc := pc, ostack := rest, mem := s.mem.write a v }) :
    ∃ t, exec i s = .next t ∧ t = { s with pc := pc, ostack := rest, mem := t.mem } ∧
      s.mem.onlyAt t.mem a v :=
  ⟨_, h, rfl, Memory.write_onlyAt hm a v⟩

/-- What the pops of a stack within its capacity leave has room for a push. -/
theorem length_ne_cap_of_cons {l rest : List Value} {v : Value} (h : l = v :: rest)
    (hl : l.length ≤ STACK_CAP) : rest.length ≠ STACK_CAP := by
  rw [h, List.length_cons] at hl
  omega

theorem length_ne_cap_of_cons_cons {l rest : List Value} {v w : Value} (h : l = v :: w :: rest)
    (hl : l.length ≤ STACK_CAP) : rest.length ≠ STACK_CAP := by
  rw [h, List.length_cons, List.length_cons] at hl
  omega

/-! ## Stack transfer -/

theorem run_push {i : Instr} {s : State} {v : Value} (h : s.ostack.length ≠ STACK_CAP) :
    runInstr i s (fun s => push v s) =
      .next { s with pc := s.pc + i.length, ostack := v :: s.ostack } :=
  runInstr_ok (push_eq (s := { s with pc := s.pc + i.length }) h v)

theorem run_push_full {i : Instr} {s : State} {v : Value} (h : s.ostack.length = STACK_CAP) :
    runInstr i s (fun s => push v s) = .next (s.faulted .stackOverflow (some i.opcode) none) :=
  run_raise (if_pos h)

/-- Settles O14: both are a push of their operand, which finds room or not. -/
theorem pushPutsOperandOnTop : Obligations.PushPutsOperandOnTop := by
  unfold Obligations.PushPutsOperandOnTop
  intro s b
  exact ⟨fun hroom => ⟨run_push hroom.ne, run_push hroom.ne⟩,
    fun hfull => ⟨run_push_full hfull, run_push_full hfull⟩⟩

theorem exec_pop_eq (d : Byte) {s : State} {v : Value} {rest : List Value} (h : s.ostack = v :: rest) :
    exec (.pop d) s =
      .next { s with
        pc := s.pc + 2, ostack := rest
        mem := s.mem.write (dataAddr (dataOffset d)) (v.numberIn s.mem) } :=
  run_popToMem h

/-- Settles O15: the top is unpacked in the memory before the store. -/
theorem popStoresUnpackedValue : Obligations.PopStoresUnpackedValue := by
  unfold Obligations.PopStoresUnpackedValue
  intro s d v rest hm hs
  exact stores_of_exec hm (exec_pop_eq d hs)

/-! ## Short stacks (40_cycle.md R89) -/

theorem binary_short {op : Byte → Byte → Res Byte} {s : State} (h : s.ostack.length < 2) :
    binary op s = raise .stackUnderflow := by
  unfold binary
  rw [popTwo_short h]
  rfl

theorem shifted_short {op : Byte → Byte → Byte} {s : State} (h : s.ostack.length < 2) :
    shifted op s = raise .stackUnderflow := by
  unfold shifted
  rw [popTwo_short h]
  rfl

theorem complemented_short {s : State} (h : s.ostack.length < 1) :
    complemented s = raise .stackUnderflow := by
  unfold complemented
  rw [pop_short h]
  rfl

/-- Settles O16: an instruction that pops begins with its pops, and those fail on a short stack. -/
theorem shortStackUnderflows : Obligations.ShortStackUnderflows := by
  unfold Obligations.ShortStackUnderflows
  intro i s h
  cases i with
  | add | sub | mul | div | and | or | xor => exact run_underflow (binary_short h)
  | addm d | subm d | mulm d | divm d | andm d | orm d | xorm d => exact run_underflow (binary_short h)
  | lsh | rsh => exact run_underflow (shifted_short h)
  | lshm d | rshm d => exact run_underflow (shifted_short h)
  | not => exact run_underflow (complemented_short h)
  | notm d => exact run_underflow (complemented_short h)
  | pop d => exact run_underflow (pop_short h)
  | wait => exact run_underflow (pop_short h)
  | putp b | putpm b | puts b => exact run_underflow (popXY_short h)
  | halt | push b | pushm b | inc d | dec d | cmp d b | cmpm d b | jmp b | jeq b | jne b | jgt b | jlt b
  | jge b | jle b | call b | ret | sys b | nop | illegal b => exact absurd h (Nat.not_lt_zero _)

/-! ## Binary operations (42_alu.md R97, R105) -/

theorem pureOp_eq {f : Byte → Byte → Byte} {x y r : Byte} (h : f x y = r) : pureOp f x y = .ok r :=
  congrArg Except.ok h

/-- Settles O17: each is a stack operation whose operator, read as numbers, is the rule's. -/
theorem stackBinaryOpsPushResult : Obligations.StackBinaryOpsPushResult := by
  unfold Obligations.StackBinaryOpsPushResult
  intro s a b rest hs hlen x y result
  have hl := length_ne_cap_of_cons_cons hs hlen
  exact ⟨run_binaryStack hs (pureOp_eq (aluAdd_eq _ _)) hl,
    run_binaryStack hs (pureOp_eq (aluSub_eq _ _)) hl,
    run_binaryStack hs (pureOp_eq (aluMul_eq _ _)) hl,
    run_binaryStack hs (pureOp_eq (aluAnd_eq _ _)) hl,
    run_binaryStack hs (pureOp_eq (aluOr_eq _ _)) hl,
    run_binaryStack hs (pureOp_eq (aluXor_eq _ _)) hl⟩

/-- Settles O18: `div` is a stack operation whose operator answers the quotient or raises DIV_ZERO. -/
theorem divPushesQuotientOrFaults : Obligations.DivPushesQuotientOrFaults := by
  unfold Obligations.DivPushesQuotientOrFaults
  intro s a b rest hs hlen x y
  refine ⟨?quotient, ?zero⟩
  case quotient =>
    intro hy
    exact run_binaryStack hs (divOp_of_ne hy) (length_ne_cap_of_cons_cons hs hlen)
  case zero =>
    intro hy
    exact run_binary_error hs (divOp_of_zero hy)

/-- Settles O19: each stores what the stack form with the same operator pushes. -/
theorem memoryBinaryOpsStoreResult : Obligations.MemoryBinaryOpsStoreResult := by
  unfold Obligations.MemoryBinaryOpsStoreResult
  intro s d a b rest hm hs x y stores
  exact ⟨stores_of_exec hm (run_binaryMem hs (pureOp_eq (aluAdd_eq _ _))),
    stores_of_exec hm (run_binaryMem hs (pureOp_eq (aluSub_eq _ _))),
    stores_of_exec hm (run_binaryMem hs (pureOp_eq (aluMul_eq _ _))),
    stores_of_exec hm (run_binaryMem hs (pureOp_eq (aluAnd_eq _ _))),
    stores_of_exec hm (run_binaryMem hs (pureOp_eq (aluOr_eq _ _))),
    stores_of_exec hm (run_binaryMem hs (pureOp_eq (aluXor_eq _ _)))⟩

/-- Settles O20: `divm` stores the quotient, or its operator raises before the store. -/
theorem divmStoresQuotientOrFaults : Obligations.DivmStoresQuotientOrFaults := by
  unfold Obligations.DivmStoresQuotientOrFaults
  intro s d a b rest hm hs x y
  refine ⟨?quotient, ?zero⟩
  case quotient =>
    intro hy
    exact stores_of_exec hm (run_binaryMem hs (divOp_of_ne hy))
  case zero =>
    intro hy
    exact run_binary_error hs (divOp_of_zero hy)

/-! ## Shift and complement (42_alu.md R113-R120) -/

section
variable {s : State} {a b : Value} {rest : List Value}

theorem exec_lsh_eq (hs : s.ostack = b :: a :: rest) (hl : s.ostack.length ≤ STACK_CAP) :
    exec .lsh s =
      .next { s with
        pc := s.pc + 1, ostack := a.retag (aluShl a.payload (b.numberIn s.mem)) :: rest } :=
  run_pushShifted hs (length_ne_cap_of_cons_cons hs hl)

theorem exec_rsh_eq (hs : s.ostack = b :: a :: rest) (hl : s.ostack.length ≤ STACK_CAP) :
    exec .rsh s =
      .next { s with
        pc := s.pc + 1, ostack := a.retag (aluShr a.payload (b.numberIn s.mem)) :: rest } :=
  run_pushShifted hs (length_ne_cap_of_cons_cons hs hl)

theorem exec_not_eq (hs : s.ostack = a :: rest) (hl : s.ostack.length ≤ STACK_CAP) :
    exec .not s = .next { s with pc := s.pc + 1, ostack := a.retag (aluNot a.payload) :: rest } :=
  run_pushComplement hs (length_ne_cap_of_cons hs hl)

theorem exec_lshm_eq (d : Byte) (hs : s.ostack = b :: a :: rest) :
    exec (.lshm d) s =
      .next { s with
        pc := s.pc + 2, ostack := rest
        mem := s.mem.write (dataAddr (dataOffset d))
          ((a.retag (aluShl a.payload (b.numberIn s.mem))).numberIn s.mem) } :=
  run_storeShifted hs

theorem exec_rshm_eq (d : Byte) (hs : s.ostack = b :: a :: rest) :
    exec (.rshm d) s =
      .next { s with
        pc := s.pc + 2, ostack := rest
        mem := s.mem.write (dataAddr (dataOffset d))
          ((a.retag (aluShr a.payload (b.numberIn s.mem))).numberIn s.mem) } :=
  run_storeShifted hs

theorem exec_notm_eq (d : Byte) (hs : s.ostack = a :: rest) :
    exec (.notm d) s =
      .next { s with
        pc := s.pc + 2, ostack := rest
        mem := s.mem.write (dataAddr (dataOffset d))
          ((a.retag (aluNot a.payload)).numberIn s.mem) } :=
  run_storeComplement hs

end

/-- Settles O21: `aluShl` and `aluShr` are the rule's arithmetic, and both give 0 from 8 on. -/
theorem shiftsKeepTheTag : Obligations.ShiftsKeepTheTag := by
  unfold Obligations.ShiftsKeepTheTag
  intro s a b rest hs hlen k result
  have hlsh := exec_lsh_eq hs hlen
  have hrsh := exec_rsh_eq hs hlen
  refine ⟨?left, hrsh, ?large⟩
  case left =>
    rw [hlsh, aluShl_eq]
  case large =>
    intro hk
    rw [aluShl_of_le hk] at hlsh
    rw [aluShr_of_le hk] at hrsh
    exact ⟨hlsh, hrsh⟩

/-- Settles O22: the shifted value is unpacked in the memory before the store. -/
theorem memoryShiftsStoreUnpacked : Obligations.MemoryShiftsStoreUnpacked := by
  unfold Obligations.MemoryShiftsStoreUnpacked
  intro s d a b rest hm hs k stores
  refine ⟨?left, stores_of_exec hm (exec_rshm_eq d hs)⟩
  case left =>
    have hlshm := exec_lshm_eq d hs
    rw [aluShl_eq] at hlshm
    exact stores_of_exec hm hlshm

/-- Settles O23: `aluNot` is the rule's `255 - x`; `not` pushes what `notm` unpacks and stores. -/
theorem complementKeepsTheTag : Obligations.ComplementKeepsTheTag := by
  unfold Obligations.ComplementKeepsTheTag
  intro s d a rest hm hs hlen v
  exact ⟨exec_not_eq hs hlen, stores_of_exec hm (exec_notm_eq d hs)⟩

/-- Storing a value's number is pushing the value and popping it to memory (42_alu.md R114). -/
theorem store_eq_push_pop {i j : Instr} {s : State} {d : Byte} {v : Value} {rest : List Value} {p q : Nat}
    (hi : exec i s =
      .next { s with
        pc := p, ostack := rest
        mem := s.mem.write (dataAddr (dataOffset d)) (v.numberIn s.mem) })
    (hj : exec j s = .next { s with pc := q, ostack := v :: rest }) :
    ∃ t u w, exec i s = .next t ∧ exec j s = .next u ∧ exec (.pop d) u = .next w ∧
      t.mem = w.mem ∧ t.ostack = w.ostack :=
  ⟨_, _, _, hi, hj, exec_pop_eq d rfl, rfl, rfl⟩

theorem exists_cons_cons_of_two_le {l : List Value} (h : 2 ≤ l.length) :
    ∃ b a rest, l = b :: a :: rest := by
  match l, h with
  | b :: a :: rest, _ => exact ⟨b, a, rest, rfl⟩

/-- Settles O24: for each of the three pairs the memory form stores the number of the value that the stack form
pushes. -/
theorem memoryShiftIsShiftThenPop : Obligations.MemoryShiftIsShiftThenPop := by
  unfold Obligations.MemoryShiftIsShiftThenPop
  intro s d hlen p hp hpops
  simp only [List.mem_cons, List.not_mem_nil, or_false] at hp
  obtain rfl | rfl | rfl := hp
  · obtain ⟨b, a, rest, hs⟩ := exists_cons_cons_of_two_le hpops
    exact store_eq_push_pop (exec_lshm_eq d hs) (exec_lsh_eq hs hlen)
  · obtain ⟨b, a, rest, hs⟩ := exists_cons_cons_of_two_le hpops
    exact store_eq_push_pop (exec_rshm_eq d hs) (exec_rsh_eq hs hlen)
  · obtain ⟨a, rest, hs⟩ := List.exists_cons_of_length_pos hpops
    exact store_eq_push_pop (exec_notm_eq d hs) (exec_not_eq hs hlen)

/-! ## Increment and decrement (42_alu.md R121, R122) -/

/-- Settles O25: both rewrite their cell by the operator with 1; the stack is the one before. -/
theorem incDecUpdateOneCell : Obligations.IncDecUpdateOneCell := by
  unfold Obligations.IncDecUpdateOneCell
  intro s d hm v stores
  have hinc : exec (.inc d) s =
      .next { s with
        pc := s.pc + 2
        mem := s.mem.write (dataAddr (dataOffset d)) (aluAdd (s.mem.read (dataAddr (dataOffset d))) 1) } :=
    run_updateCell
  have hdec : exec (.dec d) s =
      .next { s with
        pc := s.pc + 2
        mem := s.mem.write (dataAddr (dataOffset d)) (aluSub (s.mem.read (dataAddr (dataOffset d))) 1) } :=
    run_updateCell
  rw [aluAdd_eq] at hinc
  rw [aluSub_eq] at hdec
  exact ⟨stores_of_exec hm hinc, stores_of_exec hm hdec⟩

end Sys2Proof.Machine
end

section
/-! SUPPORT. Jumps, call, return and timing, each instruction as the whole next state it gives
(43_control.md R126-R135, 44_system.md R136-R138). -/

namespace Sys2Proof.Machine

open Sys2Proof.Config

/-! ## Jumps -/

theorem condEq_iff (f : Flag) : condEq f = true ↔ f = .equal := by
  cases f <;> decide

theorem condNe_iff (f : Flag) : condNe f = true ↔ f = .greater ∨ f = .less := by
  cases f <;> decide

theorem condGt_iff (f : Flag) : condGt f = true ↔ f = .greater := by
  cases f <;> decide

theorem condLt_iff (f : Flag) : condLt f = true ↔ f = .less := by
  cases f <;> decide

theorem condGe_iff (f : Flag) : condGe f = true ↔ f = .greater ∨ f = .equal := by
  cases f <;> decide

theorem condLe_iff (f : Flag) : condLe f = true ↔ f = .less ∨ f = .equal := by
  cases f <;> decide

theorem targetAddr_eq (t : Byte) : targetAddr t = t.toNat := Nat.zero_add _

/-- A jump whose condition on the flag is `c`. -/
theorem run_jump {i : Instr} {s : State} {cond : Flag → Bool} {t : Byte} {c : Prop} [Decidable c]
    (hc : cond s.flag = true ↔ c) :
    runInstr i s (fun s => jumpIf cond t s) =
      .next { s with pc := if c then t.toNat else s.pc + i.length } := by
  rw [run_jumpIf, targetAddr_eq, if_congr hc rfl rfl]

/-- Settles O27: the seven jumps are one shape, each with the condition its rule names. -/
theorem jumpsTestTheFlag : Obligations.JumpsTestTheFlag := by
  unfold Obligations.JumpsTestTheFlag
  intro s t goes
  exact ⟨run_jump (cond := fun _ => true) (iff_of_true rfl trivial), run_jump (condEq_iff _),
    run_jump (condNe_iff _), run_jump (condGt_iff _), run_jump (condLt_iff _), run_jump (condGe_iff _),
    run_jump (condLe_iff _)⟩

/-! ## Call and return -/

theorem exec_call_eq (t : Byte) {s : State} (h : s.cstack.length < CALL_CAP) :
    exec (.call t) s = .next { s with pc := t.toNat, cstack := (s.pc + 2) :: s.cstack } := by
  rw [← targetAddr_eq]
  exact run_callTo h.ne

theorem exec_call_full (t : Byte) {s : State} (h : s.cstack.length = CALL_CAP) :
    exec (.call t) s = .next (s.faulted .callOverflow (some 0x24) none) :=
  run_raise (i := .call t) (body := callTo t) (if_pos h)

/-- Settles O28: the call finds room and pushes the `pc` after its operand, or it raises CALL_OVERFLOW. -/
theorem callPushesReturnAddress : Obligations.CallPushesReturnAddress := by
  unfold Obligations.CallPushesReturnAddress
  intro s t
  exact ⟨exec_call_eq t, exec_call_full t⟩

theorem exec_ret_eq {s : State} {r : Nat} {rest : List Nat} (h : s.cstack = r :: rest) :
    exec .ret s = .next { s with pc := r, cstack := rest } :=
  run_returnFrom h

theorem exec_ret_empty {s : State} (h : s.cstack = []) :
    exec .ret s = .next (s.faulted .callUnderflow (some 0x25) none) := by
  have hraise : returnFrom { s with pc := s.pc + Instr.ret.length } = raise .callUnderflow := by
    simp only [returnFrom, h]
  exact run_raise (i := .ret) (body := returnFrom) hraise

/-- Settles O29: the return pops an address whole, or it raises CALL_UNDERFLOW. -/
theorem retPopsIntoPc : Obligations.RetPopsIntoPc := by
  unfold Obligations.RetPopsIntoPc
  intro s
  exact ⟨fun r rest h => exec_ret_eq h, exec_ret_empty⟩

/-- Settles O30: the call's push is the return's pop. -/
theorem retUndoesCall : Obligations.RetUndoesCall := by
  unfold Obligations.RetUndoesCall
  intro s u v t hcall hroom hv
  rw [exec_call_eq t hroom] at hcall
  cases hcall
  exact ⟨_, exec_ret_eq hv, rfl, rfl⟩

/-! ## Halt, nop and wait -/

theorem exec_nop_eq (s : State) : exec .nop s = .next { s with pc := s.pc + 1 } := by
  show execNop s = _
  unfold execNop
  exact runInstr_ok rfl

/-- Settles O31: neither body raises, and both leave `pc` past their one cell. -/
theorem haltAndNop : Obligations.HaltAndNop := by
  unfold Obligations.HaltAndNop
  intro s
  exact ⟨exec_halt_eq s, exec_nop_eq s⟩

/-- Settles O32: `wait` sets the counter, and the ticks of an engine that waits only count it down. -/
theorem waitSpendsItsTicks : Obligations.WaitSpendsItsTicks := by
  unfold Obligations.WaitSpendsItsTicks
  intro s v rest hs n
  refine ⟨execWait_eq hs, ?ticks⟩
  intro hh k hk
  exact core_run_waiting (s := { s with pc := s.pc + 1, ostack := rest, wait := n }) hh hk

end Sys2Proof.Machine
end

section
/-! SUPPORT. The calls of the surface: clear, put and blit (44_system.md R139-R143, 60_exceptions.md
R153-R157). -/

namespace Sys2Proof.Machine

open Sys2Proof.Config

/-! ## Clear (60_exceptions.md R155) -/

theorem surfClear_surfClear (c : Byte) (s : State) : surfClear c (surfClear c s) = surfClear c s := by
  have hmem := Memory.fill_fill s.mem VIDEO_BASE VIDEO_SIZE c c
  unfold surfClear
  simp only [hmem]

/-- Settles O37: the second fill decides what memory holds, and `dirty` is set already. -/
theorem clearTwiceIsClearOnce : Obligations.ClearTwiceIsClearOnce := by
  unfold Obligations.ClearTwiceIsClearOnce
  intro s c
  exact surfClear_surfClear c s

/-- `sys 0xF0` with the colour `c`, when its optional pop leaves the stack `rest`. -/
theorem exec_sys_clears {s : State} {c : Byte} {rest : List Value} (hm : s.mem.wf)
    (h : (s.ostack = [] ∧ rest = [] ∧ c = 0) ∨ ∃ v, s.ostack = v :: rest ∧ c = v.numberIn s.mem) :
    ∃ t, exec (.sys SYS_CLEAR_SCREEN) s = .next t ∧
      t = { s with pc := s.pc + 2, ostack := rest, mem := t.mem, dirty := true } ∧
      ∀ a, t.mem.read a = if VIDEO_BASE ≤ a ∧ a < VIDEO_BASE + VIDEO_SIZE then c else s.mem.read a :=
  ⟨_, execSys_eq h, rfl, Memory.read_fill hm (by decide) c⟩

/-- Settles O33: code 0xF0 fills the video region with the colour its optional pop gives; any other code raises
before the stack is touched. -/
theorem sysClearsScreenOrFaults : Obligations.SysClearsScreenOrFaults := by
  unfold Obligations.SysClearsScreenOrFaults
  intro s code hm clears
  refine ⟨?empty, ?popped, ?other⟩
  case empty =>
    rintro rfl hs
    exact exec_sys_clears hm (.inl ⟨hs, rfl, rfl⟩)
  case popped =>
    rintro rfl v rest hs
    exact exec_sys_clears hm (.inr ⟨v, hs, rfl⟩)
  case other =>
    intro hcode
    exact execSys_illegal hcode

/-! ## Put (60_exceptions.md R153, R156) -/

theorem inClip_iff (w : Viewport) (x y : Nat) :
    inClip w x y = true ↔
      w.vx ≤ x ∧ x < w.vx + w.vw ∧ w.vy ≤ y ∧ y < w.vy + w.vh ∧ x < 128 ∧ y < 128 :=
  decide_eq_true_iff

/-- A pixel inside the clip changes its own cell alone; one outside changes nothing. -/
theorem drawPixel_spec {m : Memory} (hm : m.wf) (w : Viewport) (x y : Nat) (c : Byte) :
    if w.vx ≤ x ∧ x < w.vx + w.vw ∧ w.vy ≤ y ∧ y < w.vy + w.vh ∧ x < 128 ∧ y < 128
    then m.onlyAt (drawPixel w x y c m) (VIDEO_BASE + x + y * 128) c
    else drawPixel w x y c m = m := by
  unfold drawPixel
  split_ifs with hclip hin hin
  · exact Memory.write_onlyAt hm _ c
  · exact absurd ((inClip_iff w x y).mpr hclip) hin
  · exact absurd ((inClip_iff w x y).mp hin) hclip
  · rfl

/-- Settles O35: `putp` and `putpm` are one call of the surface with their two colours. -/
theorem putDrawsOneClippedPixel : Obligations.PutDrawsOneClippedPixel := by
  unfold Obligations.PutDrawsOneClippedPixel
  intro s b vx vy rest hm hs x y w draws
  exact ⟨⟨_, execPutp_eq hs, rfl, drawPixel_spec hm w x y b⟩,
    ⟨_, execPutpm_eq hs, rfl, drawPixel_spec hm w x y _⟩⟩

/-! ## Blit (60_exceptions.md R157) -/

/-- A pixel of the screen after a whole block is drawn at `(x, y)`: row by row, the block takes its 64 source
cells. -/
theorem read_blit {m : Memory} (hm : m.wf) {base : Nat} (hb : base + 63 < DATA_SIZE) (w : Viewport)
    (x y : Nat) {px py : Nat} (hpx : px < 128) (hpy : py < 128) :
    ((List.range FRAME_CELLS).foldl (blitPixel w x y base) m).read (VIDEO_BASE + px + py * 128) =
      if (x ≤ px ∧ px < x + 8 ∧ y ≤ py ∧ py < y + 8) ∧
          w.vx ≤ px ∧ px < w.vx + w.vw ∧ w.vy ≤ py ∧ py < w.vy + w.vh
      then m.read (DATA_BASE + base + 8 * (py - y) + (px - x))
      else m.read (VIDEO_BASE + px + py * 128) := by
  have hcond : ((x ≤ px ∧ px < x + 8 ∧ y ≤ py ∧ 8 * (py - y) + (px - x) < 64) ∧
        inClip w px py = true) ↔
      (x ≤ px ∧ px < x + 8 ∧ y ≤ py ∧ py < y + 8) ∧
        w.vx ≤ px ∧ px < w.vx + w.vw ∧ w.vy ≤ py ∧ py < w.vy + w.vh := by
    rw [inClip_iff]
    omega
  have haddr : dataAddr (base + (8 * (py - y) + (px - x))) =
      DATA_BASE + base + 8 * (py - y) + (px - x) := by
    unfold dataAddr
    omega
  rw [← if_congr hcond rfl rfl, ← haddr]
  exact read_foldl_blitPixel hb hm (Nat.le_refl 64) hpx hpy

theorem surfBlit_outside {x y : Nat} {off f : Byte} {s : State} (h : DATA_SIZE ≤ frameBase off f + 63) :
    surfBlit x y off f s = boundary (dataAddr (max (frameBase off f) DATA_SIZE)) :=
  if_pos h

section
variable {d f : Byte} {s : State} {vx vy : Value} {rest rest' : List Value}

theorem exec_puts_inside (hs : s.ostack = vx :: vy :: rest)
    (hf : (rest = [] ∧ rest' = [] ∧ f = 0) ∨ ∃ v, rest = v :: rest' ∧ f = v.numberIn s.mem)
    (hb : frameBase d f + 63 < DATA_SIZE) :
    exec (.puts d) s =
      .next { s with
        pc := s.pc + 2, ostack := rest'
        mem := (List.range FRAME_CELLS).foldl (blitPixel s.viewport (vx.numberIn s.mem).toNat
          (vy.numberIn s.mem).toNat (frameBase d f)) s.mem
        dirty := true } := by
  have hputs : exec (.puts d) s = _ := execPuts_eq hs hf
  rw [hputs]
  refine runInstr_ok ?_
  exact surfBlit_eq hb

theorem exec_puts_outside (hs : s.ostack = vx :: vy :: rest)
    (hf : (rest = [] ∧ rest' = [] ∧ f = 0) ∨ ∃ v, rest = v :: rest' ∧ f = v.numberIn s.mem)
    (hb : DATA_SIZE ≤ frameBase d f + 63) :
    exec (.puts d) s =
      .next (takeFault s (some 0x28) ⟨.boundary, some (dataAddr (max (frameBase d f) DATA_SIZE))⟩) := by
  have hputs : exec (.puts d) s = _ := execPuts_eq hs hf
  rw [hputs]
  refine runInstr_error ?_
  exact surfBlit_outside hb

end

/-- Settles O36: after its pops `puts` is one blit, which checks its source and then draws 64 pixels. -/
theorem putsDrawsClippedBlock : Obligations.PutsDrawsClippedBlock := by
  unfold Obligations.PutsDrawsClippedBlock
  intro s d f vx vy rest rest' hm hs hf x y w base
  refine ⟨?drawn, exec_puts_outside hs hf⟩
  case drawn =>
    intro hb
    exact ⟨_, exec_puts_inside hs hf hb, rfl, fun px py hpx hpy => read_blit hm hb w x y hpx hpy,
      fun a ha => read_foldl_blitPixel_outside ha⟩

end Sys2Proof.Machine
end

section
/-! SUPPORT. What instructions and ticks leave alone (10_state.md R22-R30, 20_memory.md R41, R42, R50). -/

namespace Sys2Proof.Machine

open Sys2Proof.Config

/-! ## Memory -/

/-- An effect changes a read only at the cell it stores to, or in the video region. -/
theorem Effect.read_changed {i : Instr} {s t : State} (e : Effect i s t) {a : Nat}
    (h : t.mem.read a ≠ s.mem.read a) :
    (∃ off, storesTo i = some off ∧ a = dataAddr off) ∨
      (callsSurface i = true ∧ VIDEO_BASE ≤ a ∧ a < VIDEO_BASE + VIDEO_SIZE) := by
  obtain hsame | ⟨off, v, hoff, -, hmem⟩ | ⟨hsurf, -, hout⟩ := e.mem
  · exact absurd (by rw [hsame]) h
  · refine .inl ⟨off, hoff, ?_⟩
    by_contra ha
    exact h (by rw [hmem, Memory.read_write_other v ha])
  · refine .inr ⟨hsurf, ?_⟩
    by_contra ha
    exact h (hout a (by omega))

/-- Settles O39: a fault changes no cell, and an effect changes only what it may. -/
theorem onlyStoringInstructionsWriteMemory : Obligations.OnlyStoringInstructionsWriteMemory := by
  unfold Obligations.OnlyStoringInstructionsWriteMemory
  intro i s t a he hne
  obtain ⟨r, -, rfl⟩ | e := exec_cases he
  · exact absurd rfl hne
  · exact e.read_changed hne

/-- Neither a store's cell nor a video cell lies in the program or the config region (20_memory.md R34). -/
theorem Effect.read_program_config {i : Instr} {s t : State} (e : Effect i s t) {a : Nat}
    (ha : a < PROG_BASE + PROG_SIZE ∨ CONFIG_BASE ≤ a) : t.mem.read a = s.mem.read a := by
  by_contra hne
  have hl := layout
  obtain ⟨off, hoff, rfl⟩ | ⟨-, hlo, hhi⟩ := e.read_changed hne
  · have hlt := storesTo_lt hoff
    unfold dataAddr at ha
    omega
  · omega

/-- Settles O38: of the ways a tick can end only an instruction's effect touches memory. -/
theorem programAndConfigNeverWritten : Obligations.ProgramAndConfigNeverWritten := by
  unfold Obligations.ProgramAndConfigNeverWritten
  intro s t a h ha
  obtain ⟨-, rfl⟩ | ⟨-, -, rfl⟩ | ⟨-, -, ⟨i, -, he⟩ | ⟨op, r, -, rfl⟩⟩ := tick_cases h
  · rfl
  · rfl
  · obtain ⟨r, -, rfl⟩ | e := exec_cases he
    · rfl
    · exact e.read_program_config ha
  · rfl

/-! ## Control fields -/

/-- Settles O40: a fault writes `halted` and the record alone, and an effect says who writes each field. -/
theorem controlFieldsHaveTheirWriters : Obligations.ControlFieldsHaveTheirWriters := by
  unfold Obligations.ControlFieldsHaveTheirWriters
  intro i s t he
  obtain ⟨r, -, rfl⟩ | e := exec_cases he
  · exact ⟨absurd rfl, absurd rfl, absurd rfl, fun _ => ⟨rfl, .inr rfl⟩, absurd rfl, rfl, rfl, rfl, rfl⟩
  · obtain ⟨-, hviewport, harena, hused, hfreel⟩ := e.host
    refine ⟨e.flag.resolve_left, ?wait, ?cstack, ?halted, ?dirty, hviewport, harena, hused, hfreel⟩
    case wait =>
      intro hne
      exact (e.wait.resolve_left hne).1
    case cstack =>
      intro hne
      obtain ⟨hret, -⟩ | ⟨hcall, -⟩ := e.cstack.resolve_left hne
      · exact .inl hret
      · exact .inr hcall
    case halted =>
      intro hne
      obtain ⟨hi, ht⟩ := e.halted.resolve_left hne
      exact ⟨ht, .inl hi⟩
    case dirty =>
      intro hne
      have hd := e.dirty
      cases hc : callsSurface i with
      | false => exact absurd (by rw [hd, hc, Bool.or_false]) hne
      | true => exact ⟨by rw [hd, hc, Bool.or_true], rfl⟩

/-- Settles O41: an instruction that calls the surface has its effect, which sets `dirty`, or takes a fault. -/
theorem surfaceCallsSetDirty : Obligations.SurfaceCallsSetDirty := by
  unfold Obligations.SurfaceCallsSetDirty
  intro i s t he hc
  obtain ⟨r, -, rfl⟩ | e := exec_cases he
  · exact .inr ⟨r.cause, r.addr, rfl⟩
  · exact .inl (by rw [e.dirty, hc, Bool.or_true])

end Sys2Proof.Machine
end

section
/-! SUPPORT. The host's ports and the load: what each answers, and when it is refused (60_exceptions.md R158-R165,
20_memory.md R52, R53, 70_reset_and_hazards.md R169, R174). -/

namespace Sys2Proof.Machine

open Sys2Proof.Config

/-! ## The dirty flag -/

/-- Of the accepted actions only a present clears `dirty`. -/
theorem act_keeps_dirty {h : Harness} {a : HostAction} {c c' : Console} {r : HostReply}
    (he : c.act h a = .ok (r, c')) (hd : c.core.dirty = true) (ha : a ≠ .present) :
    c'.core.dirty = true := by
  obtain ⟨-, ht⟩ | ⟨im, -, -, ht⟩ | ⟨-, ht⟩ | ⟨hp, -⟩ | ⟨x, y, w, z, -, ht⟩ | ⟨-, ht⟩ | ⟨-, ht⟩ |
    ⟨size, off, -, ht⟩ | ⟨off, -, ht⟩ | ⟨b, v, -, -, ht⟩ | ht := act_cases he
  · exact step_keeps_dirty ht hd
  · rw [ht]; exact hd
  · rw [ht]; exact hd
  · exact absurd hp ha
  · rw [ht]; exact hd
  · rw [ht]; exact hd
  · rw [ht]; exact hd
  · obtain ⟨-, ⟨_, _, _, -, -, -, -, ht⟩ | ⟨-, -, -, ht⟩⟩ := alloc_cases ht
    · rw [ht]; exact hd
    · rw [ht]; exact hd
  · obtain ⟨_, _, _, -, -, -, ht⟩ := free_cases ht
    rw [ht]; exact hd
  · rw [ht]; exact hd
  · rw [ht]; exact hd

/-- The integrated harness issues no tick while the surface is dirty (60_exceptions.md R162). -/
theorem after_tick_of_dirty {c : Console} (hd : c.core.dirty = true) :
    c.after .integrated .tick = c := by
  refine after_of_error (act_tick_of_not_issued ?_)
  rw [tickIssued_iff]
  rintro ⟨-, hclean⟩
  exact absurd (hclean rfl) (by simp [hd])

/-- Settles O47: a refused action changes nothing, and an accepted one but present keeps `dirty`. -/
theorem onlyPresentClearsDirty : Obligations.OnlyPresentClearsDirty := by
  unfold Obligations.OnlyPresentClearsDirty
  intro h a c hd ha
  refine ⟨?keeps, after_tick_of_dirty hd⟩
  case keeps =>
    obtain hsame | ⟨r, he⟩ := after_cases h a c
    · rw [hsame]; exact hd
    · exact act_keeps_dirty he hd ha

/-! ## Ports -/

/-- Settles O48: each port is accepted at any time; present and snapshot hand over copies, cell by cell. -/
theorem hostPortsChangeOneField : Obligations.HostPortsChangeOneField := by
  unfold Obligations.HostPortsChangeOneField
  intro h c x y w z
  refine ⟨⟨_, rfl, copy_length _ _ _, fun k hk => copy_getElem? hk⟩,
    ⟨_, rfl, copy_length _ _ _, fun k hk => ?cell⟩, rfl, rfl, rfl, rfl, rfl⟩
  case cell =>
    rw [copy_getElem? hk, Nat.zero_add]

theorem act_rawRead_inside {h : Harness} {c : Console} {a : Nat} (ha : a < MEM_SIZE) :
    c.act h (.rawRead a) = .ok (.cell (c.core.mem.read a), c) := by
  simp only [Console.act, memRead_of_lt ha]

theorem act_rawRead_outside {h : Harness} {c : Console} {a : Nat} (ha : MEM_SIZE ≤ a) :
    c.act h (.rawRead a) = .error (.outside ⟨.boundary, some a⟩) := by
  have hread : memRead c.core a = boundary a := if_neg ha.not_gt
  simp only [Console.act, hread, boundary]

theorem act_rawWrite_inside {h : Harness} {c : Console} {a : Nat} {v : Byte} (hq : c.quiet = true)
    (ha : a < MEM_SIZE) :
    c.act h (.rawWrite a v) =
      .ok (.done, { c with core := { c.core with mem := c.core.mem.write a v } }) := by
  have hwrite : memWrite c.core a v = .ok { c.core with mem := c.core.mem.write a v } := if_pos ha
  simp only [Console.act, if_pos hq, hwrite]

theorem act_rawWrite_outside {h : Harness} {c : Console} {a : Nat} {v : Byte} (hq : c.quiet = true)
    (ha : MEM_SIZE ≤ a) : c.act h (.rawWrite a v) = .error (.outside ⟨.boundary, some a⟩) := by
  have hwrite : memWrite c.core a v = boundary a := if_neg ha.not_gt
  simp only [Console.act, if_pos hq, hwrite, boundary]

/-- Settles O51: the port is the checked access of R37, and a write of it changes one cell. -/
theorem rawPortChecksTheArray : Obligations.RawPortChecksTheArray := by
  unfold Obligations.RawPortChecksTheArray
  intro h c a v
  refine ⟨act_rawRead_inside, act_rawRead_outside, fun hq => ⟨?write, act_rawWrite_outside hq⟩⟩
  case write =>
    intro hm ha
    exact ⟨_, act_rawWrite_inside hq ha, rfl, Memory.write_onlyAt hm a v⟩

/-! ## Refusals -/

/-- The four actions that wait for a quiet engine (60_exceptions.md R161, 20_memory.md R53). -/
theorem act_of_not_quiet {h : Harness} {c : Console} (hq : c.quiet = false) {a : HostAction}
    (ha : (∃ im, a = .load im) ∨ (∃ b v, a = .rawWrite b v) ∨ (∃ size, a = .alloc size) ∨
      ∃ off, a = .free off) : c.act h a = .error .notAllowed := by
  obtain ⟨im, rfl⟩ | ⟨b, v, rfl⟩ | ⟨size, rfl⟩ | ⟨off, rfl⟩ := ha
  all_goals simp [Console.act, hq]

theorem act_load_of_not_fits {h : Harness} {c : Console} {im : Image} (hf : im.fits = false) :
    ∃ e, c.act h (.load im) = .error e := by
  by_cases hq : c.quiet = true
  · exact ⟨.imageTooBig, by simp [Console.act, hq, hf]⟩
  · exact ⟨.notAllowed, act_of_not_quiet (Bool.not_eq_true _ ▸ hq) (.inl ⟨im, rfl⟩)⟩

/-- Settles O50: a running engine that has ticked is not quiet, and an image over a bound does not fit. -/
theorem hostRefusedWhileRunning : Obligations.HostRefusedWhileRunning := by
  unfold Obligations.HostRefusedWhileRunning
  intro h c im a v
  refine ⟨?running, ?tooBig⟩
  case running =>
    intro hh ht
    have hq : c.quiet = false := by simp [Console.quiet, hh, ht]
    exact ⟨after_of_error (act_of_not_quiet hq (by simp)), after_of_error (act_of_not_quiet hq (by simp)),
      after_of_error (act_of_not_quiet hq (by simp)), after_of_error (act_of_not_quiet hq (by simp))⟩
  case tooBig =>
    intro hbig
    have hf : im.fits = false := by
      rw [← Bool.not_eq_true, fits_iff]
      rintro ⟨hprog, hlet, -⟩
      omega
    obtain ⟨e, he⟩ := act_load_of_not_fits (h := h) (c := c) hf
    exact after_of_error he

/-! ## Loads (70_reset_and_hazards.md R169) -/

theorem act_load_of_fits {h : Harness} {c : Console} {im : Image} (hq : c.quiet = true)
    (hf : im.fits = true) :
    c.act h (.load im) = .ok (.done, { c with core := loadImage im c.core }) := by
  simp only [Console.act, if_pos hq, if_pos hf]

section
variable {im : Image} {s : State}

theorem read_loadImage_prog (hm : s.mem.wf) (hf : im.fits = true) {k : Nat} {v : Byte}
    (hk : im.prog[k]? = some v) : (loadImage im s).mem.read (PROG_BASE + k) = v := by
  have hl := layout
  obtain ⟨hprog, -⟩ := fits_iff.mp hf
  obtain ⟨hlt, hv⟩ := List.getElem?_eq_some_iff.mp hk
  have hdata : ∀ p ∈ im.data, PROG_BASE + k ≠ dataAddr p.1 := by
    intro p _
    unfold dataAddr
    omega
  rw [loadImage_mem, read_writeData_other hdata, Memory.read_writeAll_inside hm (by omega) hlt, hv]

theorem read_loadImage_data (hm : s.mem.wf) (hf : im.fits = true) (hn : (im.data.map Prod.fst).Nodup)
    {off : Nat} {v : Byte} (h : (off, v) ∈ im.data) :
    (loadImage im s).mem.read (DATA_BASE + off) = v := by
  have hl := layout
  obtain ⟨hprog, -, hdata⟩ := fits_iff.mp hf
  have hw : (s.mem.writeAll PROG_BASE im.prog).wf := Memory.writeAll_wf hm (by omega)
  exact read_writeData_same hw hdata hn h

theorem read_loadImage_other {a : Nat} (hprog : ∀ k, k < im.prog.length → a ≠ PROG_BASE + k)
    (hdata : ∀ p ∈ im.data, a ≠ DATA_BASE + p.1) : (loadImage im s).mem.read a = s.mem.read a := by
  rw [loadImage_mem, read_writeData_other hdata]
  refine Memory.read_writeAll_outside ?_
  by_contra hin
  exact hprog (a - PROG_BASE) (by omega) (by omega)

end

/-- Settles O49: the load writes the program cells, then the data cells, which no program cell is among. -/
theorem loadWritesTheImage : Obligations.LoadWritesTheImage := by
  unfold Obligations.LoadWritesTheImage
  intro h c im hm hq hf hn
  exact ⟨loadImage im c.core, act_load_of_fits hq hf, rfl, fun k v hk => read_loadImage_prog hm hf hk,
    fun off v hv => read_loadImage_data hm hf hn hv, fun a => read_loadImage_other⟩

end Sys2Proof.Machine
end

section
/-! SUPPORT. The allocator's invariant at work: no offset in use is handed out again, and a freed block is found
again (20_memory.md R57). -/

namespace Sys2Proof.Machine

open Sys2Proof.Config

/-- Blocks that are not empty and share no cell start at different offsets. -/
theorem Block.off_ne_of_apart {b c : Block} (h : b.apart c) (hb : 1 ≤ b.cap) (hc : 1 ≤ c.cap) :
    b.off ≠ c.off := by
  omega

section
variable {s : State} {b c : Block}

theorem used_off_ne_free_off (hi : s.allocInv) (hb : b ∈ s.used) (hc : c ∈ s.freel) :
    b.off ≠ c.off := by
  obtain ⟨-, hblocks, hpair⟩ := hi
  obtain ⟨-, -, hcross⟩ := List.pairwise_append.mp hpair
  obtain ⟨hcapb, -⟩ := hblocks b (List.mem_append_left _ hb)
  obtain ⟨hcapc, -⟩ := hblocks c (List.mem_append_right _ hc)
  exact Block.off_ne_of_apart (hcross b hb c hc) hcapb hcapc

/-- A block in use starts below the arena's end. -/
theorem used_off_ne_arena (hi : s.allocInv) (hb : b ∈ s.used) : b.off ≠ s.arena := by
  obtain ⟨-, hblocks, -⟩ := hi
  obtain ⟨hcap, hend⟩ := hblocks b (List.mem_append_left _ hb)
  omega

end

/-- An `alloc` that answers hands out a free block or one at the arena's end. -/
theorem alloc_answers {size off : Nat} {s t : State} (hi : s.allocInv)
    (h : alloc size s = .ok (off, t)) :
    s.arena ≤ t.arena ∧ (∀ b ∈ s.used, b.off ≠ off) ∧ ∃ b ∈ t.used, b.off = off ∧ size ≤ b.cap := by
  obtain ⟨-, ⟨pre, b, post, hl, -, hb, rfl, rfl⟩ | ⟨-, -, rfl, rfl⟩⟩ := alloc_cases h
  · have hfree : b ∈ s.freel := by simp [hl]
    exact ⟨Nat.le_refl _, fun x hx => used_off_ne_free_off hi hx hfree, b, by simp, rfl, hb⟩
  · exact ⟨Nat.le_add_right _ _, fun x hx => used_off_ne_arena hi hx, ⟨s.arena, size⟩, by simp, rfl,
      Nat.le_refl _⟩

/-- Settles O54: both calls move a block or grow the arena by one, which keeps the invariant, and no offset in use
is a free block's or the arena's. -/
theorem allocatorNeverHandsOutTwice : Obligations.AllocatorNeverHandsOutTwice := by
  unfold Obligations.AllocatorNeverHandsOutTwice
  refine ⟨?alloc, ?free⟩
  case alloc =>
    intro size off s t hi h
    exact ⟨alloc_keeps_allocInv hi h, alloc_answers hi h⟩
  case free =>
    intro off s t hi h
    refine ⟨free_keeps_allocInv hi h, ?_⟩
    obtain ⟨_, _, _, -, -, -, rfl⟩ := free_cases h
    rfl

/-- Settles O55: the new block lies past every other one in use, so the free finds it and puts it behind the
blocks that do not fit. -/
theorem freedBlockIsReused : Obligations.FreedBlockIsReused := by
  unfold Obligations.FreedBlockIsReused
  intro size off s t u hi hsmall halloc hfree
  obtain ⟨h0, ⟨pre, b, post, hl, -, hb, -⟩ | ⟨-, -, rfl, rfl⟩⟩ := alloc_cases halloc
  · exact absurd (hsmall b (by simp [hl])) (Nat.not_lt.mpr hb)
  · rw [free_of_used (b := ⟨s.arena, size⟩) rfl (fun x hx => used_off_ne_arena hi hx) rfl] at hfree
    cases hfree
    exact ⟨_, alloc_of_fit (b := ⟨s.arena, size⟩) h0 rfl hsmall (Nat.le_refl _), rfl⟩

end Sys2Proof.Machine
end

section
/-! SUPPORT. What an assembly's image says of the source's tokens: labels, the data image and the `let` cells
(30_encoding.md R72-R80). -/

namespace Sys2Proof.Machine

open Sys2Proof.Config

/-! ## Pass 2 past a part of the stream (30_encoding.md R74) -/

/-- `M` gives every label of `L` the same position. -/
def Names.KeptIn (L M : Names) : Prop := ∀ x k, L.lookup x = some k → M.lookup x = some k

theorem Names.KeptIn.refl (L : Names) : L.KeptIn L := fun _ _ h => h

theorem Names.KeptIn.trans {L M N : Names} (h : L.KeptIn M) (h' : M.KeptIn N) : L.KeptIn N :=
  fun x k hk => h' x k (h x k hk)

theorem Names.KeptIn.append (L : Names) (x : Lexeme) (p : Nat) : L.KeptIn (L ++ [(x, p)]) :=
  fun _ _ h => lookup_append_some h

/-- A stream that pass 2 accepts, past its first token: `pos` counts that token if it advances, and a label is new
and takes the position it stands at. -/
theorem pass2_cons_ok {L labels : Names} {pos : Nat} {t : Token} {ts rest : List Token}
    (h : pass2 L pos (t :: ts) = .ok (labels, rest)) :
    ∃ M rest', pass2 M (pos + ([t].filter Token.advances).length) ts = .ok (labels, rest') ∧
      L.KeptIn M ∧ ∀ x, t = .labelDecl x → L.lookup x = none ∧ M.lookup x = some pos := by
  obtain ⟨x, rfl, ht⟩ | ht | ⟨ht, hl⟩ := t.pass2_kinds
  · rw [pass2_label] at h
    split at h
    · exact nomatch h
    · next hnew =>
      rw [Option.not_isSome_iff_eq_none] at hnew
      refine ⟨_, rest, h, .append L x pos, ?_⟩
      rintro _ ⟨⟩
      exact ⟨hnew, lookup_append_new hnew⟩
  · rw [pass2_advances L pos ts ht] at h
    cases hr : pass2 L (pos + 1) ts with
    | error e => rw [hr] at h; exact nomatch h
    | ok p =>
      rw [hr] at h
      cases h
      refine ⟨L, p.2, by rw [List.filter_cons_of_pos ht]; exact hr, .refl L, ?_⟩
      rintro x rfl
      exact nomatch ht
  · rw [pass2_skips L pos ts ht hl] at h
    exact ⟨L, rest, by rw [List.filter_cons_of_neg (by simp [ht])]; exact h, .refl L,
      fun x hx => absurd hx (hl x)⟩

/-- A stream that pass 2 accepts, past its first part `pre`. -/
theorem pass2_append_ok {L labels : Names} {pos : Nat} {pre ts rest : List Token}
    (h : pass2 L pos (pre ++ ts) = .ok (labels, rest)) :
    ∃ M rest', pass2 M (pos + (pre.filter Token.advances).length) ts = .ok (labels, rest') ∧
      L.KeptIn M := by
  induction pre generalizing L pos rest with
  | nil => exact ⟨L, rest, h, .refl L⟩
  | cons t pre ih =>
    obtain ⟨M, r, hM, hkeep, -⟩ := pass2_cons_ok h
    obtain ⟨N, r', hN, hkeep'⟩ := ih hM
    refine ⟨N, r', ?_, hkeep.trans hkeep'⟩
    rwa [← List.singleton_append, List.filter_append, List.length_append, ← Nat.add_assoc]

/-- No later token moves a label that pass 2 has recorded. -/
theorem pass2_keeps_labels {L labels : Names} {pos : Nat} {ts rest : List Token}
    (h : pass2 L pos ts = .ok (labels, rest)) : L.KeptIn labels := by
  rw [← List.append_nil ts] at h
  obtain ⟨M, r, hM, hkeep⟩ := pass2_append_ok h
  cases hM
  exact hkeep

/-- A declared label denotes the number of advancing tokens before it. -/
theorem pass2_lookup {L labels : Names} {pos : Nat} {pre post rest : List Token} {x : Lexeme}
    (h : pass2 L pos (pre ++ .labelDecl x :: post) = .ok (labels, rest)) :
    labels.lookup x = some (pos + (pre.filter Token.advances).length) := by
  obtain ⟨M, r, hM, -⟩ := pass2_append_ok h
  obtain ⟨N, r', hN, -, hlabel⟩ := pass2_cons_ok hM
  obtain ⟨-, hx⟩ := hlabel x rfl
  exact pass2_keeps_labels hN x _ hx

/-- At the second declaration of `x` the first one's entry is still in the table. -/
theorem pass2_duplicate (L : Names) (pos : Nat) (pre mid post : List Token) (x : Lexeme) :
    ∃ y, pass2 L pos (pre ++ .labelDecl x :: mid ++ .labelDecl x :: post) = .error (.duplicateLabel y) := by
  cases h : pass2 L pos (pre ++ .labelDecl x :: mid ++ .labelDecl x :: post) with
  | error e =>
    obtain ⟨y, rfl⟩ := pass2_error h
    exact ⟨y, rfl⟩
  | ok r =>
    rw [List.append_assoc, List.cons_append] at h
    obtain ⟨M, r1, hM, -⟩ := pass2_append_ok h
    obtain ⟨N, r2, hN, -, hfirst⟩ := pass2_cons_ok hM
    obtain ⟨K, r3, hK, hkeep⟩ := pass2_append_ok hN
    obtain ⟨_, _, -, -, hsecond⟩ := pass2_cons_ok hK
    obtain ⟨-, hsome⟩ := hfirst x rfl
    obtain ⟨hnone, -⟩ := hsecond x rfl
    rw [hkeep x _ hsome] at hnone
    exact nomatch hnone

/-! ## Labels in the image (30_encoding.md R75, R77) -/

theorem cellOf_of_le {n : Nat} (h : n ≤ 255) : cellOf n = .ok (toCell n) := if_pos h

theorem cellOf_of_gt {n : Nat} (h : 255 < n) : cellOf n = .error (.tooLarge n) := if_neg h.not_ge

/-- An identifier encodes to the position its label denotes. -/
theorem encodeToken_ident {labels vars : Names} {x : Lexeme} {off : Nat}
    (h : labels.lookup x = some off) :
    (off ≤ 255 → encodeToken labels vars (.ident x) = .ok [toCell off]) ∧
      (255 < off → encodeToken labels vars (.ident x) = .error (.tooLarge off)) := by
  simp only [encodeToken, h]
  refine ⟨fun hle => ?_, fun hgt => ?_⟩
  · rw [cellOf_of_le hle]; rfl
  · rw [cellOf_of_gt hgt]; rfl

/-- The advancing token after a label stands in the stream at the label's position. -/
theorem getElem?_filter_label {pre post more : List Token} {x : Lexeme} {tok : Token}
    (h : post.filter Token.advances = tok :: more) :
    ((pre ++ .labelDecl x :: post).filter Token.advances)[(pre.filter Token.advances).length]? =
      some tok := by
  rw [List.filter_append, List.filter_cons_of_neg (by simp [Token.advances]), h,
    List.getElem?_append_right (Nat.le_refl _), Nat.sub_self, List.getElem?_cons_zero]

/-- What each token of a program image stands for, once an assembly has succeeded. -/
theorem assemble_prog {src : List Char} {im : Image} (h : assemble src = .ok im) :
    ∃ p labels rest, pass1 .outside ⟨[], [], []⟩ (tokenize .idle src) = .ok p ∧
      pass2 [] 0 p.rest = .ok (labels, rest) ∧ im.prog.length = rest.length ∧
      ∀ (k : Nat) (tok : Token), rest[k]? = some tok →
        ∃ b, encodeToken labels p.vars tok = .ok [b] ∧ im.prog[k]? = some b := by
  obtain ⟨p, labels, rest, bytes, h1, h2, h3, -, -, rfl⟩ := assemble_ok h
  have hadv : ∀ t ∈ rest, t.advances = true := by
    rw [pass2_rest h2]
    exact fun t ht => (List.mem_filter.mp ht).2
  exact ⟨p, labels, rest, h1, h2, mapM_encodeToken_ok hadv h3⟩

/-- Settles O57: pass 2 counts the advancing tokens before a label, those tokens are the stream it leaves, and the
image has one byte for each of them. -/
theorem labelsNameTheNextToken : Obligations.LabelsNameTheNextToken := by
  unfold Obligations.LabelsNameTheNextToken
  intro advances
  have hadv : advances = Token.advances := by
    funext t
    cases t <;> rfl
  rw [hadv]
  refine ⟨?pass2, pass2_duplicate [] 0, ?image⟩
  case pass2 =>
    intro ts rest labels h
    refine ⟨pass2_rest h, ?_⟩
    rintro pre post x rfl
    rw [pass2_lookup h, Nat.zero_add]
  case image =>
    intro src im h
    obtain ⟨p, labels, rest, h1, h2, hlen, hprog⟩ := assemble_prog h
    refine ⟨p, labels, rest, h1, h2, hlen, hprog, ?_⟩
    intro pre post x hp off
    have hrest := pass2_rest h2
    rw [hp] at h2 hrest
    have hx : labels.lookup x = some off := by rw [pass2_lookup h2, Nat.zero_add]
    obtain ⟨hsmall, hlarge⟩ := encodeToken_ident (vars := p.vars) hx
    refine ⟨hx, hsmall, hlarge, ?_⟩
    intro tok more hpost
    exact hprog off tok (hrest ▸ getElem?_filter_label hpost)

/-! ## The data image (30_encoding.md R77, R79) -/

theorem assembled_fits {src : List Char} {im : Image} (h : assemble src = .ok im) :
    im.fits = true ∧ im.data.map Prod.fst = List.range im.nlet := by
  obtain ⟨p, labels, rest, bytes, -, -, -, hdata, hprog, rfl⟩ := assemble_ok h
  have hoffsets := dataImage_offsets p.cells
  refine ⟨fits_iff.mpr ⟨hprog, hdata, ?_⟩, hoffsets⟩
  intro c hc
  have hmem : c.1 ∈ List.range p.cells.length := hoffsets ▸ List.mem_map_of_mem hc
  exact (List.mem_range.mp hmem).trans_le hdata

/-- Settles O58: the assembly checks both images' lengths, and numbers the `let` cells from 0. -/
theorem assembledImageFits : Obligations.AssembledImageFits := by
  unfold Obligations.AssembledImageFits
  intro src im h
  exact assembled_fits h

/-! ## The `let` forms (30_encoding.md R72) -/

/-- Pass 1 comes from the start of a text to the token after `let x`, with `x` the name to declare. -/
theorem pass1_reaches_name {st : LetState} {p q : Pass1} {pre ts : List Token} {x : Lexeme}
    (h : pass1 st p (pre ++ .letKw :: .ident x :: ts) = .ok q) :
    ∃ p', pass1 (.named x) p' ts = .ok q := by
  obtain ⟨st1, p1, h⟩ := pass1_append_ok h
  obtain ⟨st2, p2, hlet, h⟩ := pass1_cons_ok h
  cases pass1Token_let hlet
  obtain ⟨st3, p3, hname, h⟩ := pass1_cons_ok h
  cases hname
  exact ⟨p2, h⟩

/-- After `let x,` the initializer is next. -/
theorem pass1_reaches_value {p q : Pass1} {x : Lexeme} {ts : List Token}
    (h : pass1 (.named x) p (.comma :: ts) = .ok q) : pass1 (.value x) p ts = .ok q := by
  obtain ⟨st, p1, hcomma, h⟩ := pass1_cons_ok h
  cases hcomma
  exact h

/-- In `let x, [` the first item is next. -/
theorem pass1_reaches_item {p q : Pass1} {x : Lexeme} {ts : List Token}
    (h : pass1 (.value x) p (.lbrack :: ts) = .ok q) : pass1 (.item x []) p ts = .ok q := by
  obtain ⟨st, p1, hbrack, h⟩ := pass1_cons_ok h
  cases hbrack
  exact h

/-- Each of the three forms declares its name with the values it gives. -/
theorem pass1_declares_form {p q : Pass1} {x : Lexeme} {form post : List Token} {vs : List Nat}
    (hf : letForm form vs post) (h : pass1 (.named x) p (form ++ post) = .ok q) : q.declares x vs := by
  obtain ⟨rfl, rfl, hpost⟩ | ⟨v, rfl, rfl⟩ | ⟨hvs, rfl⟩ := hf
  · exact pass1_named h hpost
  · exact pass1_value (pass1_reaches_value h)
  · simp only [List.cons_append, List.append_assoc] at h
    exact pass1_items hvs (pass1_reaches_item (pass1_reaches_value h))

/-- The cells a name was declared with, as its recorded offset finds them in a memory that holds the data image. -/
theorem Pass1.declares.read {p : Pass1} {x : Lexeme} {vs : List Nat} {m : Memory} (h : p.declares x vs)
    (hm : ∀ off v, (off, v) ∈ dataImage p.cells → m.read (DATA_BASE + off) = v) :
    ∃ off, p.vars.lookup x = some off ∧ off + vs.length ≤ p.cells.length ∧
      ∀ (k v : Nat), vs[k]? = some v → (m.read (DATA_BASE + off + k)).toNat = v := by
  obtain ⟨off, hx, hlen, hcells⟩ := h
  refine ⟨off, hx, hlen, fun k v hk => ?_⟩
  obtain ⟨b, hb, hv⟩ := hcells k v hk
  rw [Nat.add_assoc, hm (off + k) b (mem_dataImage hb), hv]

/-- Settles O59: the assembled image fits, so the load writes every pair of it, and pass 1 has put each form's
values into the data image at the offset it records. -/
theorem letCellsHoldTheirValues : Obligations.LetCellsHoldTheirValues := by
  unfold Obligations.LetCellsHoldTheirValues
  intro src im h c hasm hm hq
  obtain ⟨hfits, hoffsets⟩ := assembled_fits hasm
  have hread : ∀ off v, (off, v) ∈ im.data → (loadImage im c.core).mem.read (DATA_BASE + off) = v :=
    fun off v hv => read_loadImage_data hm hfits (hoffsets ▸ List.nodup_range) hv
  obtain ⟨p, labels, rest, bytes, h1, -, -, -, -, rfl⟩ := assemble_ok hasm
  refine ⟨_, p, act_load_of_fits hq hfits, rfl, hread, h1, ?_⟩
  intro pre form post x vs htokens hform
  rw [htokens] at h1
  obtain ⟨p', hnamed⟩ := pass1_reaches_name h1
  exact (pass1_declares_form hform hnamed).read hread

/-! ## Canonical spellings (30_encoding.md R80) -/

/-- Settles O56: the assembler, run on each of the twelve texts, gives the bytes the table states. -/
theorem canonicalSpellingsAssemble : Obligations.CanonicalSpellingsAssemble := by
  unfold Obligations.CanonicalSpellingsAssemble
  exact ⟨by decide, by decide, by decide, by decide, by decide, by decide, by decide, by decide,
    by decide, by decide, by decide, by decide⟩

end Sys2Proof.Machine
end
